-- ==== Sys2Proof/Word.lean ====
section
/-!
DEFINITION. The word types of the block: the 32-bit command and response word, the byte of the two raw
buffers, the 9-bit cell of the grid, and the one shape that every memory has (spec R11, R31).
-/

namespace Sys2Proof

/-- A command word and a response data word (R16, R46): 32 bits, moved whole (R35). -/
abbrev Word := BitVec 32

/-- One byte of `PIX` or `ATTR`; an attribute byte (R57). -/
abbrev Byte := BitVec 8

/-- One cell of `GRID`: bit 8 is the ink flag, bits 7:0 the attribute byte (R17, R30). -/
abbrev GridCell := BitVec 9

/-- A memory: the units that are listed, by index, indices strictly rising (`Mem.Wf` in
`Machine/Ops.lean` is the canonical form). `Mem Byte` is `List Host.Cell`. -/
abbrev Mem (α : Type) := List (Nat × α)

end Sys2Proof
end

