-- ==== Sys2Proof/Syntax.lean ====
section
/-!
DEFINITION. The thirteen operations (R4, R49), one constructor per row of `spec/opcode_table.json`, with
their operands in the order of the assembler notation (R55). A number the spec computes with (a coordinate,
a scale, an index) is a `Nat`, or an `Int` where the field is signed (R13, R48). An attribute byte or an input
byte is a `Byte`, a flag a `Bool`. That an operand fits its field is `Instr.wellFormed`.
-/

namespace Sys2Proof

/-- An operation with its operands. -/
inductive Instr where
  /-- `RESOLVE attr, ink, fl` (R59). -/
  | resolve (attr : Byte) (ink fl : Bool)
  /-- `PAL idx` (R61). -/
  | pal (idx : Nat)
  /-- `ADDR x, y`, a logical coordinate (R66). -/
  | addr (x y : Nat)
  /-- `PUSH b` (R70). -/
  | push (b : Byte)
  /-- `DECODE scale, ben, bcol` (R71). -/
  | decode (scale : Int) (ben : Bool) (bcol : Nat)
  /-- `NEW scale, ben, bcol` (R83). -/
  | new (scale : Int) (ben : Bool) (bcol : Nat)
  /-- `SET x, y, attr, ink`, a logical coordinate and a cell (R85). -/
  | set (x y : Nat) (attr : Byte) (ink : Bool)
  /-- `GET x, y`, a grid coordinate (R86). -/
  | get (x y : Int)
  /-- `BOUNDS` (R87). -/
  | bounds
  /-- `SETFLASH en` (R88). -/
  | setflash (en : Bool)
  /-- `HASFLASH` (R89). -/
  | hasflash
  /-- `STAT` (R78). -/
  | stat
  /-- `CLEAR` (R79). -/
  | clear
  deriving DecidableEq, Repr

/-- The thirteen operation names (the mnemonics of R49), without operands. -/
inductive Op where
  | resolve | pal | addr | push | decode | new | set | get | bounds | setflash | hasflash | stat | clear
  deriving DecidableEq, Repr

/-- The operation an instruction is. -/
def Instr.op : Instr → Op
  | .resolve _ _ _ => .resolve
  | .pal _ => .pal
  | .addr _ _ => .addr
  | .push _ => .push
  | .decode _ _ _ => .decode
  | .new _ _ _ => .new
  | .set _ _ _ _ => .set
  | .get _ _ => .get
  | .bounds => .bounds
  | .setflash _ => .setflash
  | .hasflash => .hasflash
  | .stat => .stat
  | .clear => .clear

end Sys2Proof
end

