-- ==== Sys2Proof/WellFormed.lean ====
section
/-!
DEFINITION. When an instruction can be written as a command word: every operand fits its field (R48). It is
what the assembler checks: it "must refuse an operand that does not fit its field" (R55). An operand that fits
but is out of the operation's range (`y` of 192 or more, a scale of 5) is well formed; the operation raises
its own error (R51).
-/

namespace Sys2Proof

/-- Every operand fits its field. Bytes and flags always do. -/
def Instr.wellFormed : Instr → Bool
  | .resolve _ _ _ => true
  | .pal idx => decide (idx < 16)
  | .addr x y => decide (x < 256) && decide (y < 256)
  | .push _ => true
  | .decode scale _ bcol => decide (-128 ≤ scale) && decide (scale ≤ 127) && decide (bcol < 256)
  | .new scale _ bcol => decide (-128 ≤ scale) && decide (scale ≤ 127) && decide (bcol < 256)
  | .set x y _ _ => decide (x < 256) && decide (y < 256)
  | .get x y =>
    decide (-8192 ≤ x) && decide (x ≤ 8191) && (decide (-8192 ≤ y) && decide (y ≤ 8191))
  | .bounds => true
  | .setflash _ => true
  | .hasflash => true
  | .stat => true
  | .clear => true

end Sys2Proof
end

