-- ==== Sys2Proof/Decode.lean ====
section
/-!
DEFINITION. The opcode table (R49), the decoder, total on all command words (R50), and after it the encoder,
written from the format tables of R47. A command word has no bytes (R35), so both work on whole words.
-/

namespace Sys2Proof

/-- Why a word is illegal (R50, R51). Executing either kind raises `IllegalCommand`. -/
inductive Illegal where
  /-- Opcode 0x0, 0xE or 0xF. -/
  | reservedOpcode (op : BitVec 4)
  /-- An assigned opcode with a reserved bit set. -/
  | reservedBits (op : Op)
  deriving DecidableEq, Repr

/-- One row of the opcode map (R49). -/
structure OpcodeRow where
  op      : Op
  code    : BitVec 4
  pattern : Word
  mask    : Word
  deriving DecidableEq, Repr

/-- The row of each operation, as R49 prints it. -/
def Op.row : Op → OpcodeRow
  | .resolve  => ⟨.resolve,  0x1, 0x10000000, 0xFFFFFC00⟩
  | .pal      => ⟨.pal,      0x2, 0x20000000, 0xFFFFFFF0⟩
  | .addr     => ⟨.addr,     0x3, 0x30000000, 0xFFFF0000⟩
  | .push     => ⟨.push,     0x4, 0x40000000, 0xFFFFFF00⟩
  | .decode   => ⟨.decode,   0x5, 0x50000000, 0xFFFE0000⟩
  | .new      => ⟨.new,      0x6, 0x60000000, 0xFFFE0000⟩
  | .set      => ⟨.set,      0x7, 0x70000000, 0xFE000000⟩
  | .get      => ⟨.get,      0x8, 0x80000000, 0xF0000000⟩
  | .bounds   => ⟨.bounds,   0x9, 0x90000000, 0xFFFFFFFF⟩
  | .setflash => ⟨.setflash, 0xA, 0xA0000000, 0xFFFFFFFE⟩
  | .hasflash => ⟨.hasflash, 0xB, 0xB0000000, 0xFFFFFFFF⟩
  | .stat     => ⟨.stat,     0xC, 0xC0000000, 0xFFFFFFFF⟩
  | .clear    => ⟨.clear,    0xD, 0xD0000000, 0xFFFFFFFF⟩

/-- The opcode table: the thirteen rows of R49, in order. -/
def opcodeTable : List OpcodeRow :=
  [Op.resolve, .pal, .addr, .push, .decode, .new, .set, .get, .bounds, .setflash, .hasflash, .stat,
    .clear].map Op.row

/-- The opcode of a word: bits 31:28 (R46). -/
def opcodeOf (w : Word) : BitVec 4 := w.extractLsb' 28 4

/-- The bits of a word from `lo` upward, as an unsigned number (`zext`, R13). -/
def fieldU (w : Word) (lo len : Nat) : Nat := (w.extractLsb' lo len).toNat

/-- The bits of a word from `lo` upward, as a two's-complement number (`sext`, R13). -/
def fieldS (w : Word) (lo len : Nat) : Int := (w.extractLsb' lo len).toInt

/-- The operand fields of a word of the given operation (formats of R47, readings of R48). -/
def readOperands (op : Op) (w : Word) : Instr :=
  match op with
  | .resolve  => .resolve (w.extractLsb' 0 8) (w.getLsbD 8) (w.getLsbD 9)
  | .pal      => .pal (fieldU w 0 4)
  | .addr     => .addr (fieldU w 0 8) (fieldU w 8 8)
  | .push     => .push (w.extractLsb' 0 8)
  | .decode   => .decode (fieldS w 0 8) (w.getLsbD 16) (fieldU w 8 8)
  | .new      => .new (fieldS w 0 8) (w.getLsbD 16) (fieldU w 8 8)
  | .set      => .set (fieldU w 0 8) (fieldU w 8 8) (w.extractLsb' 16 8) (w.getLsbD 24)
  | .get      => .get (fieldS w 0 14) (fieldS w 14 14)
  | .bounds   => .bounds
  | .setflash => .setflash (w.getLsbD 0)
  | .hasflash => .hasflash
  | .stat     => .stat
  | .clear    => .clear

/-- Decode one command word (R50): look the opcode up, check the reserved bits, read the fields. -/
def decodeWord (w : Word) : Except Illegal Instr :=
  match opcodeTable.find? (fun r => decide (r.code = opcodeOf w)) with
  | none => .error (.reservedOpcode (opcodeOf w))
  | some r =>
    if w &&& r.mask = r.pattern then .ok (readOperands r.op w) else .error (.reservedBits r.op)

/-- The instruction the decoder reads from a table word of `nbits` bits whose value is `w`; bits from
`nbits` up are 0. A command is one 32-bit word (R46, R52), so no longer word exists. -/
def decodeTableWord (nbits w : Nat) : Option Instr :=
  if nbits ≤ 32 then (decodeWord (BitVec.ofNat 32 (w % 2 ^ nbits))).toOption else none

/-- The command word of an instruction: opcode, reserved zeros and fields from bit 31 down, as the format
tables of R47 lay them out. For a well-formed instruction no field is cut. -/
def encode : Instr → Word
  | .resolve attr ink fl => 0x1#4 ++ 0#18 ++ BitVec.ofBool fl ++ BitVec.ofBool ink ++ attr
  | .pal idx             => 0x2#4 ++ 0#24 ++ BitVec.ofNat 4 idx
  | .addr x y            => 0x3#4 ++ 0#12 ++ BitVec.ofNat 8 y ++ BitVec.ofNat 8 x
  | .push b              => 0x4#4 ++ 0#20 ++ b
  | .decode sc ben bcol  => 0x5#4 ++ 0#11 ++ BitVec.ofBool ben ++ BitVec.ofNat 8 bcol ++ BitVec.ofInt 8 sc
  | .new sc ben bcol     => 0x6#4 ++ 0#11 ++ BitVec.ofBool ben ++ BitVec.ofNat 8 bcol ++ BitVec.ofInt 8 sc
  | .set x y attr ink    =>
    0x7#4 ++ 0#3 ++ BitVec.ofBool ink ++ attr ++ BitVec.ofNat 8 y ++ BitVec.ofNat 8 x
  | .get x y             => 0x8#4 ++ BitVec.ofInt 14 y ++ BitVec.ofInt 14 x
  | .bounds              => 0x9#4 ++ 0#28
  | .setflash en         => 0xA#4 ++ 0#27 ++ BitVec.ofBool en
  | .hasflash            => 0xB#4 ++ 0#28
  | .stat                => 0xC#4 ++ 0#28
  | .clear               => 0xD#4 ++ 0#28

end Sys2Proof
end

