-- ==== Sys2Proof/Config.lean ====
section
/-!
DEFINITION. What is fixed for the block and is no state: the sizes of R8 and the shape of the palette
levels of R10. Their values as the spec gives them are `Machine.paletteLevels` in `Machine/Operands.lean`,
where a later correction of an unaudited literal (R10, D32) touches one place.
-/

namespace Sys2Proof

/-- `LOGICAL_W`: logical pixels per row (R8). -/
@[simp] abbrev logicalW : Nat := 256

/-- `LOGICAL_H`: logical pixel rows (R8). -/
@[simp] abbrev logicalH : Nat := 192

/-- `PIX_BYTES`: bytes of the pixel bitmap buffer (R8). -/
@[simp] abbrev pixBytes : Nat := 6144

/-- `ATTR_BYTES`: bytes of the attribute table buffer (R8). -/
@[simp] abbrev attrBytes : Nat := 768

/-- `SCR_BYTES`: bytes of one input (R8). -/
@[simp] abbrev scrBytes : Nat := 6912

/-- The palette levels of R10, the only configuration of the block (R21). -/
structure PaletteLevels where
  /-- `PAL_NORMAL`: a present component of the eight normal colours. -/
  normal : Byte
  /-- `PAL_BRIGHT`: a present component of the eight bright colours. -/
  bright : Byte
  /-- `PAL_OFF`: a component the colour does not contain. -/
  off    : Byte
  /-- `ALPHA_OPAQUE`: the alpha of every colour. -/
  alpha  : Byte
  deriving DecidableEq, Repr

end Sys2Proof
end

