-- ==== Sys2Proof/Machine/State.lean ====
section
/-!
DEFINITION. The state of the block (R19), its two ports (R16), the reset state (R110), and the reasons a step
can stop. All of it is plain data.
-/

namespace Sys2Proof.Machine

/-- The block's own state: exactly the rows of the table of R19, less the constant `PALETTE`
(`palette` in `Operands.lean`). `W`, `H`, `BW`, `BH` are functions of it (R80), `STATUS` is a view of it
(R25), and the DECODE scan position is never observable (R32). -/
structure Block where
  /-- `PIX`: the pixel bitmap buffer, by index 0 to 6143 (R29, R31). An index that is not listed has no
  value (U9, R112). -/
  pix       : List Host.Cell
  /-- `ATTR`: the attribute table buffer, by index 0 to 767 (R29, R31), listed like `pix`. -/
  attr      : List Host.Cell
  /-- `RXCNT`: bytes received (R19). -/
  rxCnt     : BitVec 13
  /-- `RXOVF`: a byte was pushed when the buffers were full (R24). -/
  rxOvf     : Bool
  /-- `GRID`: the cells of the live region that differ from the border cell of the image, by
  `cellIndex row column` (`Ops.lean`). A live cell that is not listed holds `BCELL(BORDER_COL)`, which is
  what NEW and DECODE fill the grid with (R82, R83). Without an image no cell has a value. -/
  grid      : Mem GridCell
  /-- `IMG_VALID`: an image exists (R24). -/
  imgValid  : Bool
  /-- `SCALE`: 0 without an image, else 1 to 4 (R19, R26). -/
  scale     : BitVec 3
  /-- `BORDER_EN`: the image was built with a border (R24). -/
  borderEn  : Bool
  /-- `BORDER_COL`: the border colour index of the image (R19, R26). -/
  borderCol : BitVec 4
  /-- `FLASH_OUT`: the flash-output switch (R24). -/
  flashOut  : Bool
  /-- `HASFLASH`: the last decoded screen has a FLASH attribute (R24, R76). -/
  hasFlash  : Bool
  /-- `ERR`: the code of the first error since reset or CLEAR, 0 if none (R101). -/
  err       : BitVec 4
  deriving DecidableEq, Repr

/-- The response to one command: `(err, data)` (R16). -/
structure Response where
  err  : BitVec 4
  data : Word
  deriving DecidableEq, Repr

/-- The block with its two ports. The ports are the model's: a program is "a finite list of command words and
its result ... the list of responses and the final state" (R16). -/
structure State where
  /-- The block's state (R19). -/
  blk       : Block
  /-- The command words the host has yet to present, the next one first. -/
  commands  : List Word
  /-- The responses returned so far, the oldest first. -/
  responses : List Response
  deriving DecidableEq, Repr

/-- The only reason a step faults. -/
inductive Fault where
  /-- Raised by DECODE alone, when the count says that 6912 bytes were received and some byte of `PIX` or
  `ATTR` has no value. Safe: no run from reset reaches such a state (R20, R112), and the spec asks for a fault
  of the model there (U9). -/
  | rawByteUnspecified
  deriving DecidableEq, Repr

/-- The only reason a step is refused. -/
inductive Refusal where
  /-- Raised by `exec` for an instruction without a meaning. Safe. No arm raises it now. -/
  | notModelled (mnemonic : String)
  deriving DecidableEq, Repr

/-- The block after a hardware reset (R110, column "Reset" of R19): every counter, flag and register 0, no
memory unit with a value. -/
def Block.reset : Block where
  pix := []
  attr := []
  rxCnt := 0
  rxOvf := false
  grid := []
  imgValid := false
  scale := 0
  borderEn := false
  borderCol := 0
  flashOut := false
  hasFlash := false
  err := 0

/-- The machine right after reset: the block at its reset values, waiting for a first command (R111). -/
def State.reset : State where
  blk := Block.reset
  commands := []
  responses := []

end Sys2Proof.Machine
end

