-- ==== Sys2Proof/Machine/Ops.lean ====
section
/-!
DEFINITION. The operations every meaning is built from: reading and writing a memory unit, the geometry of the
grid, filling a block of it, taking in a command word, completing with a response, and raising an error.
-/

namespace Sys2Proof.Machine

/-! ### Memories as sorted lists -/

/-- The unit listed at index `a`. -/
def Mem.lookup {α : Type} : Mem α → Nat → Option α
  | [], _ => none
  | (k, v) :: m, a => if k = a then some v else Mem.lookup m a

/-- List `v` at index `a`, in the place its index has. -/
def Mem.insert {α : Type} (a : Nat) (v : α) : Mem α → Mem α
  | [] => [(a, v)]
  | (k, w) :: m =>
    if a < k then (a, v) :: (k, w) :: m
    else if a = k then (a, v) :: m
    else (k, w) :: Mem.insert a v m

/-- List nothing at index `a`. -/
def Mem.erase {α : Type} (a : Nat) (m : Mem α) : Mem α := m.filter (fun e => decide (e.1 ≠ a))

/-- Write `v` at index `a` of a memory whose unlisted units read as `d` (`none`: they have no value). Writing
what an unlisted unit reads as takes the entry out. -/
def Mem.write {α : Type} [DecidableEq α] (d : Option α) (m : Mem α) (a : Nat) (v : α) : Mem α :=
  if d = some v then Mem.erase a m else Mem.insert a v m

/-- The canonical form: indices strictly rising, every index legal, and no entry equal to what an unlisted
unit reads as. -/
abbrev Mem.Wf {α : Type} [DecidableEq α] (d : Option α) (legal : Nat → Bool) (m : Mem α) : Prop :=
  m.Pairwise (fun e f => e.1 < f.1) ∧ ∀ e ∈ m, legal e.1 = true ∧ d ≠ some e.2

/-! ### The raw buffers `PIX` and `ATTR` (R29) -/

/-- `PIX[i]`, where it has a value (R31). -/
def Block.readPix (b : Block) (i : Nat) : Option Byte := if i < pixBytes then Mem.lookup b.pix i else none

/-- `ATTR[i]`, where it has a value (R31). -/
def Block.readAttr (b : Block) (i : Nat) : Option Byte := if i < attrBytes then Mem.lookup b.attr i else none

/-- `PIX[i] ← v`. -/
def Block.storePix (b : Block) (i : Nat) (v : Byte) : Block := { b with pix := Mem.write none b.pix i v }

/-- `ATTR[i] ← v`. -/
def Block.storeAttr (b : Block) (i : Nat) (v : Byte) : Block := { b with attr := Mem.write none b.attr i v }

/-- `RXCNT ← RXCNT + 1`. -/
def Block.countByte (b : Block) : Block := { b with rxCnt := b.rxCnt + 1 }

/-- `RXOVF ← 1`. -/
def Block.noteOverflow (b : Block) : Block := { b with rxOvf := true }

/-- The two raw buffers as DECODE reads them: 6144 pixel bytes and 768 attribute bytes (R29). -/
structure RawScreen where
  pix  : Array Byte
  attr : Array Byte
  deriving DecidableEq, Repr

/-- All of `PIX` and all of `ATTR`, where every byte has a value (R71 "State read"). -/
def Block.rawScreen (b : Block) : Option RawScreen :=
  match (List.range pixBytes).mapM b.readPix, (List.range attrBytes).mapM b.readAttr with
  | some p, some a => some ⟨p.toArray, a.toArray⟩
  | _, _ => none

/-! ### The grid (R30, R39, R80) -/

/-- `BW`: the border width per side of an image of scale `s` (R80). -/
def borderW (s : Nat) (ben : Bool) : Nat := if ben then 32 * s else 0

/-- `BH`: the border height per side (R80). -/
def borderH (s : Nat) (ben : Bool) : Nat := if ben then 24 * s else 0

/-- `W`: the grid width (R80). -/
def gridW (s : Nat) (ben : Bool) : Nat := 256 * s + 2 * borderW s ben

/-- `H`: the grid height (R80). -/
def gridH (s : Nat) (ben : Bool) : Nat := 192 * s + 2 * borderH s ben

/-- `BW` of the image the block holds. DESIGN CHOICE (log entry 20), safe: R80 leaves `BW`, `BH`, `W` and `H` undefined
without an image; the four functions follow the formulas there too (all 0 at `SCALE` 0), and no operation uses them. -/
def Block.bw (b : Block) : Nat := borderW b.scale.toNat b.borderEn

/-- `BH` of the image the block holds (without an image: log entry 20). -/
def Block.bh (b : Block) : Nat := borderH b.scale.toNat b.borderEn

/-- `W` of the image the block holds (without an image: log entry 20). -/
def Block.width (b : Block) : Nat := gridW b.scale.toNat b.borderEn

/-- `H` of the image the block holds (without an image: log entry 20). -/
def Block.height (b : Block) : Nat := gridH b.scale.toNat b.borderEn

/-- The row stride of the flat index of a cell. DESIGN CHOICE (log entry 5), safe: "nothing depends on the
choice" (R39); it exceeds every grid width a 3-bit `SCALE` can give. -/
def gridStride : Nat := 4096

/-- The flat index of the cell in row `r` and column `c` (R39). -/
def cellIndex (r c : Nat) : Nat := r * gridStride + c

/-- A cell from its two parts: `{ink, attr}` (R17). -/
def mkCell (ink : Bool) (attr : Byte) : GridCell := BitVec.ofBool ink ++ attr

/-- The attribute byte of a cell: bits 7:0 (R30). -/
def cellAttr (v : GridCell) : Byte := v.extractLsb' 0 8

/-- The ink flag of a cell: bit 8 (R30). -/
def cellInk (v : GridCell) : Bool := v.getLsbD 8

/-- `BCELL(bc)`: ink 1, FLASH 0, BRIGHT `bc[3]`, PAPER 0, INK `bc[2:0]` (R82). -/
def bcell (bc : BitVec 4) : GridCell :=
  1#1 ++ 0#1 ++ bc.extractLsb' 3 1 ++ 0#3 ++ bc.extractLsb' 0 3

/-- What an unlisted cell of `GRID` reads as: the border cell of the image, and no value without an image
(R83; log entry 3). -/
def Block.gridFill (b : Block) : Option GridCell := if b.imgValid then some (bcell b.borderCol) else none

/-- The cell in row `r` and column `c` counts as live: it lies inside the grid (R39). -/
def Block.inGrid (b : Block) (r c : Nat) : Bool := decide (r < b.height) && decide (c < b.width)

/-- `GRID[r][c]`, where it has a value: inside the grid of an image (R31). -/
def Block.readCell (b : Block) (r c : Nat) : Option GridCell :=
  if b.inGrid r c then (Mem.lookup b.grid (cellIndex r c)).or b.gridFill else none

/-- `GRID[r][c] ← v`. -/
def Block.writeCell (b : Block) (r c : Nat) (v : GridCell) : Block :=
  { b with grid := Mem.write b.gridFill b.grid (cellIndex r c) v }

/-- Write `v` into the cells of a list of (row, column) pairs, in order. -/
def Block.writeCells (b : Block) (cells : List (Nat × Nat)) (v : GridCell) : Block :=
  cells.foldl (fun b rc => b.writeCell rc.1 rc.2 v) b

/-- The cells of the `s × s` block of logical pixel (x, y), row by row (R84). -/
def Block.blockCells (b : Block) (x y : Nat) : List (Nat × Nat) :=
  (List.range b.scale.toNat).flatMap fun j =>
    (List.range b.scale.toNat).map fun i => (b.bh + y * b.scale.toNat + j, b.bw + x * b.scale.toNat + i)

/-- `write_block(x, y, cell)` (R84). -/
def Block.writeBlock (b : Block) (x y : Nat) (v : GridCell) : Block := b.writeCells (b.blockCells x y) v

/-- `construct(s, ben, bc)` (R83): the options of the image are recorded, the flash switch and `HASFLASH` are 0,
an image exists, and every cell of its grid is `BCELL(bc)`, that is, no cell is listed. -/
def Block.construct (b : Block) (s : Nat) (ben : Bool) (bc : BitVec 4) : Block :=
  { b with
    scale := BitVec.ofNat 3 s, borderEn := ben, borderCol := bc
    flashOut := false, hasFlash := false, imgValid := true, grid := [] }

/-- `FLASH_OUT ← en`. -/
def Block.switchFlash (b : Block) (en : Bool) : Block := { b with flashOut := en }

/-! ### Commands, responses and errors (R16, R91, R100, R101) -/

/-- Take in the next command word, if the host has presented one (R16). -/
def State.takeCommand (s : State) : Option (Word × State) :=
  match s.commands with
  | [] => none
  | w :: rest => some (w, { s with commands := rest })

/-- Present a command word to be taken in next. -/
def State.present (s : State) (w : Word) : State := { s with commands := w :: s.commands }

/-- Replace the block's state. -/
def State.withBlk (s : State) (b : Block) : State := { s with blk := b }

/-- Return one response, after those returned before it (R16). -/
def State.answer (s : State) (err : BitVec 4) (data : Word) : State :=
  { s with responses := s.responses ++ [⟨err, data⟩] }

/-- `respond(d)` (R15): the operation completes. -/
def State.respond (s : State) (d : Word) : State := s.answer 0 d

/-- The errors the block raises (R91). Codes 3 and 4 are the host's and never arise (R91, U12). -/
inductive Error where
  | truncatedInput
  | invalidOptions
  | illegalCommand
  | noImage
  | badCoordinate
  deriving DecidableEq, Repr

/-- The 4-bit code of an error (R91). -/
def errorCode : Error → BitVec 4
  | .truncatedInput => 1
  | .invalidOptions => 2
  | .illegalCommand => 5
  | .noImage        => 6
  | .badCoordinate  => 7

/-- `ERR` keeps the first code since reset or CLEAR (R101). -/
def Block.latchErr (b : Block) (e : Error) : Block :=
  { b with err := if b.err = 0 then errorCode e else b.err }

/-- `raise E(info)` (R15, R100): what stands here for taking an exception. No state is written but `ERR`, the
response carries the code and the value, and the next command is taken as usual. There is no handler to enter
and nothing to return from (R100, R102). -/
def State.raise (s : State) (e : Error) (info : Word) : State :=
  (s.withBlk (s.blk.latchErr e)).answer (errorCode e) info

/-- The operations that need an image raise `NoImage` without one, before any test of their own (R90, R99). -/
def State.needImage (s : State) (body : Host.Outcome State Fault Refusal) : Host.Outcome State Fault Refusal :=
  if s.blk.imgValid then body else .next (s.raise .noImage 0)

end Sys2Proof.Machine
end

