-- ==== Sys2Proof/Machine/Operands.lean ====
section
/-!
DEFINITION. What the operations make of their operands: the palette and the colour an attribute byte stands
for (R57 to R60), the indices a logical coordinate stands for (R62 to R67), the scale and border colour
operands (R72, R81, R93), and the packing of response data words (R53, R92).
-/

namespace Sys2Proof.Machine

/-! ### Colours -/

/-- The palette levels with the values the spec gives (R10). -/
def paletteLevels : PaletteLevels where
  normal := 0xEE
  bright := 0xFF
  off := 0x00
  alpha := 0xFF

/-- `PALETTE[i]` as the word `{R, G, B, A}` (R17, R58): bit 0 of the index is blue, bit 1 red, bit 2 green, at
the level of the index's half. -/
def palette (i : Nat) : Word :=
  let level := if i < 8 then paletteLevels.normal else paletteLevels.bright
  let component (k : Nat) : Byte := if i.testBit k then level else paletteLevels.off
  component 1 ++ component 2 ++ component 0 ++ paletteLevels.alpha

/-- INK of an attribute byte: bits 2:0 (R57). -/
def attrInk (a : Byte) : Nat := (a.extractLsb' 0 3).toNat

/-- PAPER of an attribute byte: bits 5:3 (R57). -/
def attrPaper (a : Byte) : Nat := (a.extractLsb' 3 3).toNat

/-- BRIGHT of an attribute byte: bit 6 (R57). -/
def attrBright (a : Byte) : Bool := a.getLsbD 6

/-- FLASH of an attribute byte: bit 7 (R57). -/
def attrFlash (a : Byte) : Bool := a.getLsbD 7

/-- The palette index `resolve` selects, by its four steps in order (R59). -/
def resolveIndex (attr : Byte) (ink fl : Bool) : Nat :=
  let i := attrInk attr
  let p := attrPaper attr
  let (i, p) := if attrBright attr then (i + 8, p + 8) else (i, p)
  let (i, p) := if fl && attrFlash attr then (p, i) else (i, p)
  if ink then i else p

/-- `resolve(attr, ink, fl)` (R59). -/
def resolve (attr : Byte) (ink fl : Bool) : Word := palette (resolveIndex attr ink fl)

/-! ### Logical coordinates -/

/-- `row(y)`: the storage row of logical row `y` (R63). -/
def storageRow (y : Nat) : Nat := y / 64 * 64 + y * 8 % 64 + y % 64 / 8

/-- `pix(x, y)`: the byte of `PIX` that holds the pixel (R64). -/
def pixIndex (x y : Nat) : Nat := 32 * storageRow y + x / 8

/-- `ord(x)`: the bit of that byte, counted from the most significant (R64). -/
def bitOrdinal (x : Nat) : Nat := x % 8

/-- `att(x, y)`: the byte of `ATTR` that governs the pixel (R65; the corrected formula, conflict C2). -/
def attrIndex (x y : Nat) : Nat := 32 * (y / 8) + x / 8

/-- The result of `address` (R66). -/
structure PixelAddress where
  pix  : Nat
  ord  : Nat
  attr : Nat
  deriving DecidableEq, Repr

/-- A coordinate of the logical screen (R67). -/
def onScreen (x y : Nat) : Bool := decide (x < logicalW) && decide (y < logicalH)

/-- `address(x, y)` (R66): no value out of range, neither wrapped nor clamped (R67, U1). -/
def address (x y : Nat) : Option PixelAddress :=
  if onScreen x y then some ⟨pixIndex x y, bitOrdinal x, attrIndex x y⟩ else none

/-- The data word of ADDR: attribute index in 25:16, ordinal in 15:13, pixel index in 12:0 (R53). -/
def packAddress (a : PixelAddress) : Word :=
  0#6 ++ BitVec.ofNat 10 a.attr ++ BitVec.ofNat 3 a.ord ++ BitVec.ofNat 13 a.pix

/-! ### Conversion options -/

/-- The clamp of the Image Buffer's constructor (R81). -/
def clampScale (sc : Int) : Nat := if sc ≤ 0 then 1 else if 4 < sc then 4 else sc.toNat

/-- A scale outside 1 to 4 (R72). -/
def badScale (sc : Int) : Bool := decide (sc < 1) || decide (4 < sc)

/-- A border colour index above 15 (R72). -/
def badBorderCol (bcol : Nat) : Bool := decide (15 < bcol)

/-- The value `InvalidOptions` reports: bit 0 for the scale, bit 1 for the border colour (R93). -/
def optionFaults (scaleBad bcolBad : Bool) : Word := 0#30 ++ BitVec.ofBool bcolBad ++ BitVec.ofBool scaleBad

/-- The value `TruncatedInput` reports: `RXOVF` in 31, the expected count in 28:16, `RXCNT` in 12:0 (R92). -/
def countInfo (b : Block) : Word :=
  BitVec.ofBool b.rxOvf ++ 0#2 ++ BitVec.ofNat 13 scrBytes ++ 0#3 ++ b.rxCnt

/-- The data word of BOUNDS: `H` in 31:16, `W` in 15:0 (R53). -/
def packBounds (b : Block) : Word := BitVec.ofNat 16 b.height ++ BitVec.ofNat 16 b.width

end Sys2Proof.Machine
end

