-- ==== Sys2Proof/Machine/Flags.lean ====
section
/-!
DEFINITION. The flags that are computed: the length check of DECODE (R73), `HASFLASH` (R76), and the `STATUS`
view of the whole state (R25).
-/

namespace Sys2Proof.Machine

/-- The raw screen is complete and exact: 6912 bytes received and none over (R73). -/
def Block.rawExact (b : Block) : Bool := decide (b.rxCnt.toNat = scrBytes) && !b.rxOvf

/-- `HASFLASH` of a decoded screen: some attribute byte has bit 7 set (R76). -/
def RawScreen.anyFlash (raw : RawScreen) : Bool := raw.attr.toList.any attrFlash

/-- A flag as a data word: bit 0 (R53). -/
def flagWord (f : Bool) : Word := 0#31 ++ BitVec.ofBool f

/-- The `STATUS` register, from bit 31 down (R25). -/
def Block.status (b : Block) : Word :=
  0#3 ++ b.rxCnt ++ b.borderCol ++ b.scale ++ BitVec.ofBool b.borderEn ++ BitVec.ofBool b.rxOvf
    ++ BitVec.ofBool b.flashOut ++ BitVec.ofBool b.hasFlash ++ BitVec.ofBool b.imgValid ++ b.err

end Sys2Proof.Machine
end

