-- ==== Sys2Proof/Machine/Addressor.lean ====
section
/-!
DEFINITION. The memory_addressor_unit: ADDR (R66, R67).
-/

namespace Sys2Proof.Machine

/-- ADDR `x, y` (R66). -/
def execAddr (x y : Nat) (s : State) : Host.Outcome State Fault Refusal :=
  match address x y with
  | some a => .next (s.respond (packAddress a))
  | none => .next (s.raise .badCoordinate 0)

end Sys2Proof.Machine
end

