-- ==== Sys2Proof/Machine/Compositor.lean ====
section
/-!
DEFINITION. The frame_buffer_compositor: NEW (R83), SET (R85), GET (R86), BOUNDS (R87), SETFLASH (R88),
HASFLASH (R89).
-/

namespace Sys2Proof.Machine

/-- NEW `scale, ben, bcol` (R83): the border colour is checked, the scale is clamped. -/
def execNew (scale : Int) (ben : Bool) (bcol : Nat) (s : State) : Host.Outcome State Fault Refusal :=
  if badBorderCol bcol then .next (s.raise .invalidOptions (optionFaults false true))
  else .next ((s.withBlk (s.blk.construct (clampScale scale) ben (BitVec.ofNat 4 bcol))).respond 0)

/-- SET `x, y, attr, ink` (R85). -/
def execSet (x y : Nat) (attr : Byte) (ink : Bool) (s : State) : Host.Outcome State Fault Refusal :=
  s.needImage <|
    if onScreen x y then .next ((s.withBlk (s.blk.writeBlock x y (mkCell ink attr))).respond 0)
    else .next (s.raise .badCoordinate 0)

/-- The colour GET answers with (R86): that of the cell, or outside the grid the border colour. -/
def Block.colourAt (b : Block) (c r : Int) : Word :=
  if c < 0 ∨ r < 0 then palette b.borderCol.toNat
  else
    match b.readCell r.toNat c.toNat with
    | none => palette b.borderCol.toNat
    | some v => resolve (cellAttr v) (cellInk v) b.flashOut

/-- GET `x, y` (R86), `x` the column and `y` the row. -/
def execGet (x y : Int) (s : State) : Host.Outcome State Fault Refusal :=
  s.needImage (.next (s.respond (s.blk.colourAt x y)))

/-- BOUNDS (R87). -/
def execBounds (s : State) : Host.Outcome State Fault Refusal :=
  s.needImage (.next (s.respond (packBounds s.blk)))

/-- SETFLASH `en` (R88). -/
def execSetflash (en : Bool) (s : State) : Host.Outcome State Fault Refusal :=
  s.needImage (.next ((s.withBlk (s.blk.switchFlash en)).respond 0))

/-- HASFLASH (R89). -/
def execHasflash (s : State) : Host.Outcome State Fault Refusal :=
  s.needImage (.next (s.respond (flagWord s.blk.hasFlash)))

end Sys2Proof.Machine
end

