-- ==== Sys2Proof/Machine/Decoder.lean ====
section
/-!
DEFINITION. The decoder proper: PUSH (R70), DECODE (R71 to R77), STAT (R78), CLEAR (R79), and what an illegal
command word does (R51).
-/

namespace Sys2Proof.Machine

/-- An illegal command word raises `IllegalCommand` (R51, R94). -/
def execIllegal (s : State) : Host.Outcome State Fault Refusal := .next (s.raise .illegalCommand 0)

/-- What PUSH does to the block: store the byte at the next stream offset, or drop it and note the overflow
(R70, R33). -/
def Block.receive (b : Block) (v : Byte) : Block :=
  if b.rxCnt.toNat < pixBytes then (b.storePix b.rxCnt.toNat v).countByte
  else if b.rxCnt.toNat < scrBytes then (b.storeAttr (b.rxCnt.toNat - pixBytes) v).countByte
  else b.noteOverflow

/-- PUSH `b` (R70). -/
def execPush (v : Byte) (s : State) : Host.Outcome State Fault Refusal :=
  .next ((s.withBlk (s.blk.receive v)).respond 0)

/-- The cell of logical pixel (x, y): the pixel's bit is the ink flag (R75), the governing attribute byte the
attribute (R71). `address` never leaves its range here (R74), so no default is ever taken. -/
def RawScreen.cell (raw : RawScreen) (x y : Nat) : GridCell :=
  mkCell ((raw.pix.getD (pixIndex x y) 0).getLsbD (7 - bitOrdinal x)) (raw.attr.getD (attrIndex x y) 0)

/-- The cells DECODE lists for a new image: those of the scaled screen that differ from the border cell, in
row-major order (the closed form of R77, which a model may use for the walk of R71). -/
def Block.screenCells (b : Block) (raw : RawScreen) : Mem GridCell :=
  let s := b.scale.toNat
  (List.range (logicalH * s)).flatMap fun j =>
    (List.range (logicalW * s)).filterMap fun i =>
      let v := raw.cell (i / s) (j / s)
      if b.gridFill = some v then none else some (cellIndex (b.bh + j) (b.bw + i), v)

/-- What a successful DECODE does to the block (R71): the writes of NEW, then the screen, then `HASFLASH`. -/
def Block.decodeScreen (b : Block) (s : Nat) (ben : Bool) (bc : BitVec 4) (raw : RawScreen) : Block :=
  let image := b.construct s ben bc
  { image with grid := image.screenCells raw, hasFlash := raw.anyFlash }

/-- DECODE `scale, ben, bcol` (R71): the options are tested first (R72), then the length (R73). -/
def execDecode (scale : Int) (ben : Bool) (bcol : Nat) (s : State) : Host.Outcome State Fault Refusal :=
  if badScale scale || badBorderCol bcol then
    .next (s.raise .invalidOptions (optionFaults (badScale scale) (badBorderCol bcol)))
  else if !s.blk.rawExact then
    .next (s.raise .truncatedInput (countInfo s.blk))
  else
    match s.blk.rawScreen with
    | none => .fault .rawByteUnspecified
    | some raw =>
      .next ((s.withBlk (s.blk.decodeScreen scale.toNat ben (BitVec.ofNat 4 bcol) raw)).respond 0)

/-- STAT (R78). -/
def execStat (s : State) : Host.Outcome State Fault Refusal := .next (s.respond s.blk.status)

/-- CLEAR (R79): every piece of the block's state takes its reset value. -/
def execClear (s : State) : Host.Outcome State Fault Refusal :=
  .next ((s.withBlk Block.reset).respond 0)

end Sys2Proof.Machine
end

