-- ==== Sys2Proof/Machine/Resolver.lean ====
section
/-!
DEFINITION. The attribute_colour_resolver: RESOLVE (R59) and PAL (R61).
-/

namespace Sys2Proof.Machine

/-- RESOLVE `attr, ink, fl` (R59). -/
def execResolve (attr : Byte) (ink fl : Bool) (s : State) : Host.Outcome State Fault Refusal :=
  .next (s.respond (resolve attr ink fl))

/-- PAL `idx` (R61). -/
def execPal (idx : Nat) (s : State) : Host.Outcome State Fault Refusal :=
  .next (s.respond (palette idx))

end Sys2Proof.Machine
end

