-- ==== Sys2Proof/Machine/Dispatch.lean ====
section
/-!
DEFINITION. One arm per instruction, each one call of its meaning.
-/

namespace Sys2Proof.Machine

def exec (i : Instr) (s : State) : Host.Outcome State Fault Refusal :=
  match i with
  -- attribute_colour_resolver
  | .resolve attr ink fl => Sys2Proof.Machine.execResolve attr ink fl s
  | .pal idx => Sys2Proof.Machine.execPal idx s
  -- memory_addressor_unit
  | .addr x y => Sys2Proof.Machine.execAddr x y s
  -- decoder
  | .push b => Sys2Proof.Machine.execPush b s
  | .decode scale ben bcol => Sys2Proof.Machine.execDecode scale ben bcol s
  -- frame_buffer_compositor
  | .new scale ben bcol => Sys2Proof.Machine.execNew scale ben bcol s
  | .set x y attr ink => Sys2Proof.Machine.execSet x y attr ink s
  | .get x y => Sys2Proof.Machine.execGet x y s
  | .bounds => Sys2Proof.Machine.execBounds s
  | .setflash en => Sys2Proof.Machine.execSetflash en s
  | .hasflash => Sys2Proof.Machine.execHasflash s
  -- decoder: status and restart
  | .stat => Sys2Proof.Machine.execStat s
  | .clear => Sys2Proof.Machine.execClear s

end Sys2Proof.Machine
end

