-- ==== Sys2Proof/Machine/Step.lean ====
section
/-!
DEFINITION. One step: take in the next command word, decode it, execute it. Without a command the block holds
its state (R109, R111).
-/

namespace Sys2Proof.Machine

/-- One command from presentation to response (R16, R50), or idling. -/
def step (s : State) : Host.Outcome State Fault Refusal :=
  match s.takeCommand with
  | none => .next s
  | some (w, s') =>
    match decodeWord w with
    | .ok i => exec i s'
    | .error _ => execIllegal s'

/-- `s` with the command word of value `w` presented next. Bits from `nbits` up are 0. -/
def State.withFetchWord (s : State) (nbits w : Nat) : State := s.present (BitVec.ofNat 32 (w % 2 ^ nbits))

end Sys2Proof.Machine
end

