-- ==== Sys2Proof/Safety.lean ====
section
/-!
DEFINITION. The terms claims about runs are made in: the canonical form of the three memories, the invariants
the spec lists (R20, R91), and what the border region holds.
-/

namespace Sys2Proof.Machine

/-- The three memories are in canonical form: indices rising and legal, no entry equal to what an unlisted
unit reads as. Without an image the grid lists nothing. -/
abbrev Block.MemOk (b : Block) : Prop :=
  Mem.Wf none (fun i => decide (i < pixBytes)) b.pix ∧
  Mem.Wf none (fun i => decide (i < attrBytes)) b.attr ∧
  Mem.Wf b.gridFill (fun k => b.inGrid (k / gridStride) (k % gridStride)) b.grid ∧
  (b.imgValid = false → b.grid = [])

/-- R20, clauses 1 and 2: the byte count and the overflow flag. -/
abbrev Block.CountOk (b : Block) : Prop :=
  b.rxCnt.toNat ≤ 6912 ∧ (b.rxOvf = true → b.rxCnt.toNat = 6912)

/-- R20, clause 3: without an image its registers are 0. -/
abbrev Block.NoImageOk (b : Block) : Prop :=
  b.imgValid = false →
    b.scale = 0 ∧ b.borderEn = false ∧ b.borderCol = 0 ∧ b.flashOut = false ∧ b.hasFlash = false

/-- R20, clause 4: an image has a legal scale and every live cell has a value. -/
abbrev Block.ImageOk (b : Block) : Prop :=
  b.imgValid = true →
    (1 ≤ b.scale.toNat ∧ b.scale.toNat ≤ 4) ∧
    ∀ r, r < b.height → ∀ c, c < b.width → (b.readCell r c).isSome = true

/-- R20, clause 5: the bytes received have a value. -/
abbrev Block.ReceivedOk (b : Block) : Prop :=
  (∀ i, i < min b.rxCnt.toNat 6144 → (b.readPix i).isSome = true) ∧
  ∀ j, j < b.rxCnt.toNat - 6144 → (b.readAttr j).isSome = true

/-- What holds in every reachable state (R20). -/
abbrev Block.Consistent (b : Block) : Prop :=
  b.CountOk ∧ b.NoImageOk ∧ b.ImageOk ∧ b.ReceivedOk

/-- A code that `STATUS.ERR` or a response may hold (R91): none, or one of the block's five errors. -/
abbrev LegalCode (e : BitVec 4) : Prop := e = 0 ∨ e = 1 ∨ e = 2 ∨ e = 5 ∨ e = 6 ∨ e = 7

/-- The cell in row `r` and column `c` lies in the scaled screen, not in the border (R39). -/
abbrev Block.OnScaledScreen (b : Block) (r c : Nat) : Prop :=
  (b.bh ≤ r ∧ r < b.bh + 192 * b.scale.toNat) ∧ b.bw ≤ c ∧ c < b.bw + 256 * b.scale.toNat

/-- Every border cell holds `BCELL(BORDER_COL)` (R82, R86). -/
def Block.BorderOk (b : Block) : Prop :=
  b.imgValid = true →
    ∀ r c, r < b.height → c < b.width → ¬ b.OnScaledScreen r c → b.readCell r c = some (bcell b.borderCol)

end Sys2Proof.Machine
end

