-- ==== Sys2Proof/Certificates/Slice0/Obligations.lean ====
section
/-!
DEFINITION. The statements about the model, one `def Obligations.<Name> : Prop` each, and before them the
spec's own tables and formulas, written out again from its text so that a statement compares the machine with
the spec and not with the machine's own definitions.
-/

namespace Sys2Proof.Machine.Claim

/-! ### The spec's tables and formulas -/

/-- The sixteen palette words as the table of R58 prints them. They rest on the spec's decision D9 and on its
general-knowledge passage G3 (log entry 6). -/
def specPalette : List Word :=
  [0x000000FF, 0x0000EEFF, 0xEE0000FF, 0xEE00EEFF, 0x00EE00FF, 0x00EEEEFF, 0xEEEE00FF, 0xEEEEEEFF,
   0x000000FF, 0x0000FFFF, 0xFF0000FF, 0xFF00FFFF, 0x00FF00FF, 0x00FFFFFF, 0xFFFF00FF, 0xFFFFFFFF]

/-- Palette entry `i`. -/
def specEntry (i : Nat) : Word := specPalette.getD i 0

/-- The closed form of the palette index `resolve` selects (R60), on the attribute byte as a number. -/
def specIndex (attr : Nat) (ink fl : Bool) : Nat :=
  let swap := fl && decide (attr / 128 % 2 = 1)
  8 * (attr / 64 % 2) + (if ink != swap then attr % 8 else attr / 8 % 8)

/-- The colour `resolve` gives (R59, R60). -/
def specColour (attr : Nat) (ink fl : Bool) : Word := specEntry (specIndex attr ink fl)

/-- The colour of a cell given as a number: bits 7:0 the attribute, bit 8 the ink flag (R17, R86). -/
def specCellColour (v : GridCell) (fl : Bool) : Word :=
  specColour (v.toNat % 256) (decide (v.toNat / 256 = 1)) fl

/-- The rows of R49: each operation with its `match` and `mask`. -/
def specRows : List (Op × Word × Word) :=
  [(.resolve, 0x10000000, 0xFFFFFC00), (.pal, 0x20000000, 0xFFFFFFF0), (.addr, 0x30000000, 0xFFFF0000),
   (.push, 0x40000000, 0xFFFFFF00), (.decode, 0x50000000, 0xFFFE0000), (.new, 0x60000000, 0xFFFE0000),
   (.set, 0x70000000, 0xFE000000), (.get, 0x80000000, 0xF0000000), (.bounds, 0x90000000, 0xFFFFFFFF),
   (.setflash, 0xA0000000, 0xFFFFFFFE), (.hasflash, 0xB0000000, 0xFFFFFFFF), (.stat, 0xC0000000, 0xFFFFFFFF),
   (.clear, 0xD0000000, 0xFFFFFFFF)]

/-- `row(y)` (R63). -/
def specRow (y : Nat) : Nat := (y / 64) * 64 + (y * 8) % 64 + (y % 64) / 8

/-- `pix(x, y)` (R64). -/
def specPix (x y : Nat) : Nat := 32 * specRow y + x / 8

/-- `att(x, y)`, in the first form of R65. -/
def specAtt (x y : Nat) : Nat := (y / 64) * 256 + 32 * ((y % 64) / 8) + x / 8

/-- `BW` (R80). -/
def specBW (s : Nat) (ben : Bool) : Nat := if ben then 256 * s / 8 else 0

/-- `BH` (R80). -/
def specBH (s : Nat) (ben : Bool) : Nat := if ben then 192 * s / 8 else 0

/-- `W` (R80). -/
def specW (s : Nat) (ben : Bool) : Nat := 256 * s + 2 * specBW s ben

/-- `H` (R80). -/
def specH (s : Nat) (ben : Bool) : Nat := 192 * s + 2 * specBH s ben

/-- `BCELL(bc)` as the number R82 gives. -/
def specBorderCell (bc : Nat) : GridCell := BitVec.ofNat 9 (0x100 + 64 * (bc / 8) + bc % 8)

/-- A cell `{ink, attr}` as a number (R17). -/
def specCell (ink : Bool) (attr : Byte) : GridCell := BitVec.ofNat 9 ((if ink then 256 else 0) + attr.toNat)

/-- The image of R77, for a raw screen with pixel bytes `p` and attribute bytes `a`. -/
def specImage (s : Nat) (ben : Bool) (bc : Nat) (p a : Nat → Byte) (r c : Nat) : Option GridCell :=
  let bw := specBW s ben
  let bh := specBH s ben
  if r < specH s ben ∧ c < specW s ben then
    if (bw ≤ c ∧ c < bw + 256 * s) ∧ bh ≤ r ∧ r < bh + 192 * s then
      let x := (c - bw) / s
      let y := (r - bh) / s
      some (specCell (decide ((p (specPix x y)).toNat / 2 ^ (7 - x % 8) % 2 = 1)) (a (specAtt x y)))
    else some (specBorderCell bc)
  else none

/-! ### What a command hands back -/

/-- From `s` to `t` exactly one response was returned, and no command was taken in. -/
def Answers (s t : State) (err : BitVec 4) (data : Word) : Prop :=
  t.commands = s.commands ∧ t.responses = s.responses ++ [⟨err, data⟩]

/-- The block is as before but for `ERR`, which keeps an earlier code (R100, R101). -/
def OnlyErr (b c : Block) (code : BitVec 4) : Prop :=
  c = { b with err := if b.err = 0 then code else b.err }

/-- From `s` to `t` an error was raised and nothing else happened (R100). -/
def Raises (s t : State) (code : BitVec 4) (info : Word) : Prop :=
  Answers s t code info ∧ OnlyErr s.blk t.blk code

/-- The options of a conversion are legal (R72). -/
def OptionsOk (sc : Int) (bcol : Nat) : Prop := (1 ≤ sc ∧ sc ≤ 4) ∧ bcol ≤ 15

/-- Exactly 6912 bytes were received (R73). -/
def LengthOk (b : Block) : Prop := b.rxCnt.toNat = 6912 ∧ b.rxOvf = false

/-- Every byte of the raw screen has a value. -/
def RawFilled (b : Block) : Prop :=
  (∀ i, i < 6144 → (b.readPix i).isSome = true) ∧ ∀ j, j < 768 → (b.readAttr j).isSome = true

/-- The block is as R110 leaves it: every register 0 and no memory unit with a value. -/
def AtReset (b : Block) : Prop :=
  b.rxCnt = 0 ∧ b.rxOvf = false ∧ b.imgValid = false ∧ b.scale = 0 ∧ b.borderEn = false ∧ b.borderCol = 0 ∧
  b.flashOut = false ∧ b.hasFlash = false ∧ b.err = 0 ∧ b.status = 0 ∧
  (∀ i, b.readPix i = none) ∧ (∀ j, b.readAttr j = none) ∧ ∀ r c, b.readCell r c = none

/-- The two raw buffers and their counters are the same. -/
def SameRaw (b c : Block) : Prop :=
  c.pix = b.pix ∧ c.attr = b.attr ∧ c.rxCnt = b.rxCnt ∧ c.rxOvf = b.rxOvf

/-- The image is the same: its registers, its flags and every cell. -/
def SameImage (b c : Block) : Prop :=
  c.grid = b.grid ∧ c.imgValid = b.imgValid ∧ c.scale = b.scale ∧ c.borderEn = b.borderEn ∧
  c.borderCol = b.borderCol ∧ c.flashOut = b.flashOut ∧ c.hasFlash = b.hasFlash

/-- Cell (r, c) lies in the `s × s` block of logical pixel (x, y) of the image in `b` (R84). -/
def InBlock (b : Block) (x y r c : Nat) : Prop :=
  let s := b.scale.toNat
  (specBH s b.borderEn + y * s ≤ r ∧ r < specBH s b.borderEn + y * s + s) ∧
  specBW s b.borderEn + x * s ≤ c ∧ c < specBW s b.borderEn + x * s + s

/-! ### Sequences of operations inside one claim -/

/-- The states after PUSHing a list of bytes in order. -/
def pushAll : List Byte → State → Option State
  | [], s => some s
  | v :: vs, s =>
    match exec (.push v) s with
    | .next t => pushAll vs t
    | _ => none

/-- The order in which DECODE visits the logical pixels: rows, then byte columns, then bits (R74). -/
def scanOrder : List (Nat × Nat) :=
  (List.range 192).flatMap fun y =>
    (List.range 32).flatMap fun col => (List.range 8).map fun k => (8 * col + k, y)

/-- One pixel of the walk of R71: address, two reads, one block write. -/
def walkPixel (b : Option Block) (xy : Nat × Nat) : Option Block :=
  b.bind fun b =>
    (address xy.1 xy.2).bind fun a =>
      (b.readPix a.pix).bind fun p =>
        (b.readAttr a.attr).bind fun v =>
          some (b.writeBlock xy.1 xy.2 (specCell (p.getLsbD (7 - a.ord)) v))

/-- The whole walk of R71. -/
def walk (b : Block) : Option Block := scanOrder.foldl walkPixel (some b)

/-- The counter of the stateful derivation of R68, at row `y`. -/
def rowCounter : Nat → Nat
  | 0 => 0
  | y + 1 => if (y + 1) % 64 = 0 then 0 else if (y + 1) % 8 = 0 then rowCounter y + 1 else rowCounter y

end Sys2Proof.Machine.Claim

open Sys2Proof Sys2Proof.Machine Sys2Proof.Machine.Claim

/-! ### Encoding -/

/-- One word of every operation, from the examples of R55 and V-ENC-1, decodes to what it stands for. -/
def Obligations.DecodeOfWrittenOutWords : Prop :=
  decodeWord 0x10000147 = .ok (.resolve 0x47 true false) ∧
  decodeWord 0x20000009 = .ok (.pal 9) ∧
  decodeWord 0x30000108 = .ok (.addr 8 1) ∧
  decodeWord 0x400000FF = .ok (.push 0xFF) ∧
  decodeWord 0x5001FF80 = .ok (.decode (-128) true 255) ∧
  decodeWord 0x60000FFD = .ok (.new (-3) false 15) ∧
  decodeWord 0x71470203 = .ok (.set 3 2 0x47 true) ∧
  decodeWord 0x80003FFF = .ok (.get (-1) 0) ∧
  decodeWord 0x90000000 = .ok .bounds ∧
  decodeWord 0xA0000001 = .ok (.setflash true) ∧
  decodeWord 0xB0000000 = .ok .hasflash ∧
  decodeWord 0xC0000000 = .ok .stat ∧
  decodeWord 0xD0000000 = .ok .clear

/-- Decoding the word of a well-formed instruction gives the instruction back. -/
def Obligations.DecodeOfEncodeIsTheInstruction : Prop :=
  ∀ i : Instr, i.wellFormed = true → decodeWord (encode i) = .ok i

/-- Every word that decodes is the one word of a well-formed instruction: no bit of it is dropped. -/
def Obligations.EncodeOfDecodeIsTheWord : Prop :=
  ∀ (w : Word) (i : Instr), decodeWord w = .ok i → i.wellFormed = true ∧ encode i = w

/-- A word is an operation exactly when it passes the `match` and `mask` test of the operation's row (R49). -/
def Obligations.WordIsOperationExactlyWhenMasked : Prop :=
  ∀ row ∈ specRows, ∀ w : Word,
    (∃ i, decodeWord w = .ok i ∧ i.op = row.1) ↔ w &&& row.2.2 = row.2.1

/-- A word with a reserved opcode, or an assigned opcode and a reserved bit set, raises `IllegalCommand` with
value 0 and does nothing else (R94, R51; the spec's decision D4). -/
def Obligations.IllegalWordRaisesIllegalCommand : Prop :=
  ∀ (s : State) (w : Word) (rest : List Word), s.commands = w :: rest →
    (w >>> 28 = 0x0 ∨ w >>> 28 = 0xE ∨ w >>> 28 = 0xF ∨
      ∃ row ∈ specRows, w >>> 28 = row.2.1 >>> 28 ∧ w &&& row.2.2 ≠ row.2.1) →
    ∃ t, step s = .next t ∧ t.commands = rest ∧ t.responses = s.responses ++ [⟨5, 0⟩] ∧
      OnlyErr s.blk t.blk 5

/-! ### Steps, responses and errors -/

/-- A step takes the next command and executes what it decodes to; an encoded instruction presented next is
what runs; without a command the block holds its state (R16, R109; that a step without a command idles is the
model's choice, log entry 2). -/
def Obligations.StepRunsTheDecodedInstruction : Prop :=
  (∀ (s : State) (w : Word) (rest : List Word) (i : Instr), s.commands = w :: rest → decodeWord w = .ok i →
    step s = exec i { s with commands := rest }) ∧
  (∀ (s : State) (i : Instr), i.wellFormed = true → step (s.withFetchWord 32 (encode i).toNat) = exec i s) ∧
  (∀ s : State, s.commands = [] → step s = .next s)

/-- Every command that completes is answered by exactly one response, after the earlier ones (R16). -/
def Obligations.EveryCommandGetsOneResponse : Prop :=
  ∀ (s t : State) (w : Word) (rest : List Word), s.commands = w :: rest → step s = .next t →
    t.commands = rest ∧ ∃ r, t.responses = s.responses ++ [r]

/-- An operation that answers an error has written nothing but `ERR` (R100). -/
def Obligations.FailedCommandWritesOnlyErr : Prop :=
  ∀ (s t : State) (w : Word) (rest : List Word) (e : BitVec 4) (d : Word),
    s.commands = w :: rest → step s = .next t → t.responses = s.responses ++ [⟨e, d⟩] → e ≠ 0 →
    t.commands = rest ∧ OnlyErr s.blk t.blk e

/-- `ERR` takes the code of the first error and keeps it: a success leaves it, an error sets it when it is 0,
and only CLEAR returns it to 0 (R101; the spec's decision D18). -/
def Obligations.ErrKeepsTheFirstCode : Prop :=
  ∀ (s t : State) (w : Word) (rest : List Word) (e : BitVec 4) (d : Word),
    s.commands = w :: rest → step s = .next t → t.responses = s.responses ++ [⟨e, d⟩] →
    (decodeWord w = .ok .clear → t.blk.err = 0) ∧
    (decodeWord w ≠ .ok .clear →
      (s.blk.err ≠ 0 → t.blk.err = s.blk.err) ∧ (s.blk.err = 0 → t.blk.err = e))

/-- Codes 3, 4 and 8 to 15 never arise, in no response and not in `ERR` (R91, U12). -/
def Obligations.StepKeepsLegalErrorCodes : Prop :=
  ∀ s t : State, LegalCode s.blk.err → (∀ r ∈ s.responses, LegalCode r.err) → step s = .next t →
    LegalCode t.blk.err ∧ ∀ r ∈ t.responses, LegalCode r.err

/-- `NoImage` is the answer of SET, GET, BOUNDS, SETFLASH and HASFLASH without an image, whatever their
operands, and of nothing else (R95, R90; the spec's decision D4). -/
def Obligations.NoImageIsRaisedExactlyWithoutImage : Prop :=
  (∀ (i : Instr) (s : State), i.op ∈ [Op.set, .get, .bounds, .setflash, .hasflash] → s.blk.imgValid = false →
    ∃ t, exec i s = .next t ∧ Raises s t 6 0) ∧
  (∀ (i : Instr) (s t : State) (d : Word), exec i s = .next t → Answers s t 6 d →
    i.op ∈ [Op.set, .get, .bounds, .setflash, .hasflash] ∧ s.blk.imgValid = false ∧ d = 0)

/-- `BadCoordinate` is the answer of ADDR, and of SET with an image, for a row of 192 or more, with value 0, and
no other well-formed operation answers it; GET never does (R96, R67; the spec's decisions D15, D16). -/
def Obligations.BadCoordinateIsRaisedExactlyBelowTheScreen : Prop :=
  (∀ (s : State) (x y : Nat), 192 ≤ y → ∃ t, exec (.addr x y) s = .next t ∧ Raises s t 7 0) ∧
  (∀ (s : State) (x y : Nat) (attr : Byte) (ink : Bool), s.blk.imgValid = true → 192 ≤ y →
    ∃ t, exec (.set x y attr ink) s = .next t ∧ Raises s t 7 0) ∧
  (∀ (i : Instr) (s t : State) (d : Word), i.wellFormed = true → exec i s = .next t → Answers s t 7 d →
    (∃ x y, i = .addr x y ∧ 192 ≤ y) ∨ ∃ x y attr ink, i = .set x y attr ink ∧ 192 ≤ y)

/-- `InvalidOptions`: DECODE with a scale outside 1 to 4 or a border colour above 15, NEW with a border colour
above 15; the value has bit 0 for the scale and bit 1 for the border colour (R93; the spec's decisions D13, D23). -/
def Obligations.InvalidOptionsReportsTheBadFields : Prop :=
  (∀ (s : State) (sc : Int) (ben : Bool) (bcol : Nat), ¬ OptionsOk sc bcol →
    ∃ t d, exec (.decode sc ben bcol) s = .next t ∧ Raises s t 2 d ∧
      d.toNat = (if 1 ≤ sc ∧ sc ≤ 4 then 0 else 1) + (if 15 < bcol then 2 else 0)) ∧
  (∀ (s : State) (sc : Int) (ben : Bool) (bcol : Nat), 15 < bcol →
    ∃ t, exec (.new sc ben bcol) s = .next t ∧ Raises s t 2 2)

/-- `TruncatedInput`: DECODE with legal options and a wrong byte count, in either direction; the value holds the
actual count, the expected count and `RXOVF` (R92, R73; the spec's decisions D6, D23). -/
def Obligations.TruncatedInputReportsTheCounts : Prop :=
  ∀ (s : State) (sc : Int) (ben : Bool) (bcol : Nat), OptionsOk sc bcol →
    (s.blk.rxCnt.toNat ≠ 6912 ∨ s.blk.rxOvf = true) →
    ∃ t d, exec (.decode sc ben bcol) s = .next t ∧ Raises s t 1 d ∧
      d.toNat = s.blk.rxCnt.toNat + 2 ^ 16 * 6912 + (if s.blk.rxOvf then 2 ^ 31 else 0)

/-- Of two errors that apply, the first in the order of R99 is reported: `NoImage` before `BadCoordinate` in SET,
`InvalidOptions` before `TruncatedInput` in DECODE. -/
def Obligations.ErrorPriorityInSetAndDecode : Prop :=
  (∀ (s : State) (x y : Nat) (attr : Byte) (ink : Bool), s.blk.imgValid = false → 192 ≤ y →
    ∃ t, exec (.set x y attr ink) s = .next t ∧ Raises s t 6 0) ∧
  (∀ (s : State) (sc : Int) (ben : Bool) (bcol : Nat), ¬ OptionsOk sc bcol → ¬ LengthOk s.blk →
    ∃ t d, exec (.decode sc ben bcol) s = .next t ∧ Raises s t 2 d)

/-- The operations that cannot fail (R97): RESOLVE, PAL, PUSH, STAT, CLEAR always; GET, BOUNDS, SETFLASH, HASFLASH
once an image exists; DECODE once its options are legal and exactly 6912 bytes were received, in every state in
which R20 holds. -/
def Obligations.OperationsThatCannotFail : Prop :=
  (∀ (i : Instr) (s : State), i.op ∈ [Op.resolve, .pal, .push, .stat, .clear] →
    ∃ t d, exec i s = .next t ∧ Answers s t 0 d) ∧
  (∀ (i : Instr) (s : State), i.op ∈ [Op.get, .bounds, .setflash, .hasflash] → s.blk.imgValid = true →
    ∃ t d, exec i s = .next t ∧ Answers s t 0 d) ∧
  (∀ (s : State) (sc : Int) (ben : Bool) (bcol : Nat), s.blk.Consistent → OptionsOk sc bcol → LengthOk s.blk →
    ∃ t, exec (.decode sc ben bcol) s = .next t ∧ Answers s t 0 0)

/-- The raw buffers with their counters, the registers and flags of the image, its cells and the flash switch are
written only by the operations the table of R19 names for them, whatever their outcome. -/
def Obligations.StateIsWrittenOnlyByItsOperations : Prop :=
  ∀ (i : Instr) (s t : State), exec i s = .next t →
    (i.op ∉ [Op.push, .clear] → SameRaw s.blk t.blk) ∧
    (i.op ∉ [Op.new, .decode, .clear] →
      t.blk.imgValid = s.blk.imgValid ∧ t.blk.scale = s.blk.scale ∧ t.blk.borderEn = s.blk.borderEn ∧
      t.blk.borderCol = s.blk.borderCol ∧ t.blk.hasFlash = s.blk.hasFlash) ∧
    (i.op ∉ [Op.new, .decode, .set, .clear] → ∀ r c, t.blk.readCell r c = s.blk.readCell r c) ∧
    (i.op ∉ [Op.setflash, .new, .decode, .clear] → t.blk.flashOut = s.blk.flashOut)

/-- GET, RESOLVE, PAL, ADDR, BOUNDS, HASFLASH and STAT change no state when they succeed, and a second one in a
row returns the same response (R37). -/
def Obligations.ReadsChangeNothingAndRepeat : Prop :=
  ∀ (i : Instr) (s t : State) (d : Word),
    i.op ∈ [Op.get, .resolve, .pal, .addr, .bounds, .hasflash, .stat] → exec i s = .next t → Answers s t 0 d →
    t.blk = s.blk ∧ ∃ u, exec i t = .next u ∧ Answers t u 0 d

/-- CLEAR is the only operation that lowers `RXCNT`, `RXOVF`, `IMG_VALID` or `ERR` (R79, corner case a). -/
def Obligations.OnlyClearLowersCountersAndFlags : Prop :=
  ∀ (s t : State) (w : Word) (rest : List Word), s.commands = w :: rest → decodeWord w ≠ .ok .clear →
    step s = .next t →
    s.blk.rxCnt.toNat ≤ t.blk.rxCnt.toNat ∧ (s.blk.rxOvf = true → t.blk.rxOvf = true) ∧
    (s.blk.imgValid = true → t.blk.imgValid = true) ∧ (s.blk.err ≠ 0 → t.blk.err ≠ 0)

/-- From the moment the buffers are full until CLEAR, no operation changes the raw screen (R29). -/
def Obligations.RawScreenIsImmutableOnceFull : Prop :=
  ∀ (i : Instr) (s t : State), s.blk.rxCnt.toNat = 6912 → i ≠ .clear → exec i s = .next t →
    t.blk.pix = s.blk.pix ∧ t.blk.attr = s.blk.attr ∧ t.blk.rxCnt = s.blk.rxCnt

/-! ### Reset and the invariants -/

/-- After reset, and after CLEAR in any state, every register is 0 and `STATUS` is 0 (R110, R79; the spec's decision
D20), and no memory unit has a value: R110 says only that the contents are unspecified, and that the model holds no
value for them is log entry 4, after R112, an inference the spec marks as derived. -/
def Obligations.ResetAndClearLeaveResetValues : Prop :=
  AtReset State.reset.blk ∧
  ∀ s : State, ∃ t, exec .clear s = .next t ∧ Answers s t 0 0 ∧ AtReset t.blk ∧ t.blk = State.reset.blk

/-- The invariants hold of the reset state: R20 (an inference the spec marks as derived), the canonical form of the
three memories (the model's own representation of them, log entries 3 and 4), the border invariant, and a legal error
code. -/
def Obligations.InvariantsHoldAtReset : Prop :=
  State.reset.blk.Consistent ∧ State.reset.blk.MemOk ∧ State.reset.blk.BorderOk ∧ LegalCode State.reset.blk.err

/-- Every step keeps what R20 says of every reachable state (an inference the spec marks as derived). -/
def Obligations.StepKeepsConsistency : Prop :=
  ∀ s t : State, s.blk.Consistent → step s = .next t → t.blk.Consistent

/-- No step faults or refuses in a state in which R20 holds: no unspecified memory unit is ever read, and the
block never stops (R20 "Consequence" and R112, inferences the spec marks as derived; R119). -/
def Obligations.ConsistentStatesNeverStop : Prop :=
  ∀ s : State, s.blk.Consistent → ∃ t, step s = .next t

/-- Every step keeps the three memories in canonical form, the model's own representation of them (log entries 3
and 4). -/
def Obligations.StepKeepsMemoriesCanonical : Prop :=
  ∀ s t : State, s.blk.MemOk → step s = .next t → t.blk.MemOk

/-- Every step keeps the border region of an image at the border cell (R82, R84, R85 corner case c). -/
def Obligations.StepKeepsTheBorder : Prop :=
  ∀ s t : State, s.blk.BorderOk → step s = .next t → t.blk.BorderOk

/-! ### attribute_colour_resolver -/

/-- RESOLVE answers the palette colour of the closed form, for all 1024 operand values and in every state, and
changes nothing (R59; the closed form is R60's, an inference the spec marks as derived; the colours are log entry
6). -/
def Obligations.ResolveAnswersTheSelectedColour : Prop :=
  ∀ (s : State) (attr : Byte) (ink fl : Bool), ∃ t, exec (.resolve attr ink fl) s = .next t ∧
    Answers s t 0 (specColour attr.toNat ink fl) ∧ t.blk = s.blk

/-- PAL answers the palette entry of its index and changes nothing (R61, R58; the colours are log entry 6). -/
def Obligations.PalAnswersTheEntry : Prop :=
  ∀ (s : State) (idx : Nat), idx < 16 → ∃ t, exec (.pal idx) s = .next t ∧
    Answers s t 0 (specEntry idx) ∧ t.blk = s.blk

/-- Every colour that RESOLVE, PAL or GET answers is one of the sixteen palette words, fully opaque (R60, R61; the
sixteen words and the alpha value are log entry 6). -/
def Obligations.ColoursAreOpaquePaletteEntries : Prop :=
  ∀ (i : Instr) (s t : State) (d : Word), i.wellFormed = true → i.op ∈ [Op.resolve, .pal, .get] →
    exec i s = .next t → Answers s t 0 d → d ∈ specPalette ∧ d.toNat % 256 = 0xFF

/-! ### memory_addressor_unit -/

/-- ADDR answers the indices of the formulas R63 to R65, packed as R53 says, and changes nothing. -/
def Obligations.AddrAnswersTheIndices : Prop :=
  ∀ (s : State) (x y : Nat), x < 256 → y < 192 → ∃ t d, exec (.addr x y) s = .next t ∧ Answers s t 0 d ∧
    t.blk = s.blk ∧ d.toNat = 65536 * specAtt x y + 8192 * (x % 8) + specPix x y

/-- The address map (R69, an inference the spec marks as derived): the row map is its own inverse; pixels and
bits of `PIX` correspond one to one; each attribute byte governs one 8×8 block; both indices lie in the pixel's
third. -/
def Obligations.AddressMapIsBijectiveAndCellwise : Prop :=
  (∀ y, y < 192 → specRow (specRow y) = y) ∧
  (∀ p o, p < 6144 → o < 8 →
    ∃ x y a, address x y = some ⟨p, o, a⟩ ∧ ∀ x' y' a', address x' y' = some ⟨p, o, a'⟩ → x' = x ∧ y' = y) ∧
  (∀ x y a, a < 768 →
    ((∃ p o, address x y = some ⟨p, o, a⟩) ↔
      (8 * (a % 32) ≤ x ∧ x ≤ 8 * (a % 32) + 7) ∧ 8 * (a / 32) ≤ y ∧ y ≤ 8 * (a / 32) + 7)) ∧
  (∀ x y A, address x y = some A → A.pix < 6144 ∧ A.ord < 8 ∧ A.attr < 768 ∧
    A.pix / 2048 = y / 64 ∧ A.attr / 256 = y / 64)

/-- The closed form of the row map equals the stateful derivation of R68, for every row (an inference the spec marks
as derived). -/
def Obligations.RowFormulaEqualsTheRunningCounter : Prop :=
  ∀ y : Nat, 64 * (y / 64) + (y * 8) % 64 + rowCounter y = storageRow y

/-! ### Decoder -/

/-- PUSH stores its byte at the next stream offset and counts it, or, when the buffers are full, sets `RXOVF` and
stores nothing; every other byte and all other state stay (R70, R33). -/
def Obligations.PushStoresTheNextStreamByte : Prop :=
  ∀ (s : State) (v : Byte), ∃ t, exec (.push v) s = .next t ∧ Answers s t 0 0 ∧
    (s.blk.rxCnt.toNat < 6912 →
      t.blk.rxCnt.toNat = s.blk.rxCnt.toNat + 1 ∧ t.blk.rxOvf = s.blk.rxOvf ∧
      (∀ i, i < 6144 → t.blk.readPix i = if i = s.blk.rxCnt.toNat then some v else s.blk.readPix i) ∧
      (∀ j, j < 768 → t.blk.readAttr j = if j + 6144 = s.blk.rxCnt.toNat then some v else s.blk.readAttr j)) ∧
    (6912 ≤ s.blk.rxCnt.toNat →
      t.blk.rxCnt = s.blk.rxCnt ∧ t.blk.rxOvf = true ∧ t.blk.pix = s.blk.pix ∧ t.blk.attr = s.blk.attr) ∧
    SameImage s.blk t.blk ∧ t.blk.err = s.blk.err

/-- A stream of up to 6912 bytes pushed after reset or CLEAR fills the buffers: byte `k` lies at stream offset
`k`, in `PIX` below 6144 and in `ATTR` from there on (R33, R70; that the bitmap comes first is the spec's decision
D7 and its general-knowledge passage G1, log entry 13). -/
def Obligations.PushedStreamFillsTheBuffers : Prop :=
  ∀ (s : State) (bytes : List Byte), s.blk.rxCnt = 0 → bytes.length ≤ 6912 →
    ∃ t, pushAll bytes s = some t ∧ t.blk.rxCnt.toNat = bytes.length ∧ t.blk.rxOvf = s.blk.rxOvf ∧
      SameImage s.blk t.blk ∧ t.blk.err = s.blk.err ∧
      (∀ i, i < 6144 → t.blk.readPix i = if i < bytes.length then bytes[i]? else s.blk.readPix i) ∧
      (∀ j, j < 768 → t.blk.readAttr j = if j + 6144 < bytes.length then bytes[j + 6144]? else s.blk.readAttr j)

/-- A DECODE with legal options and a complete raw screen succeeds and leaves the image of R77, the options,
`HASFLASH` as R76 says, the flash switch off, and the raw screen and `ERR` as they were (R71; R77 is an inference the
spec marks as derived; that bit 1 is ink is its decision D8 and general-knowledge passage G2, log entry 13). -/
def Obligations.DecodeBuildsTheSpecifiedImage : Prop :=
  ∀ (s : State) (sc : Int) (ben : Bool) (bcol : Nat) (p a : Nat → Byte),
    OptionsOk sc bcol → LengthOk s.blk →
    (∀ i, i < 6144 → s.blk.readPix i = some (p i)) → (∀ j, j < 768 → s.blk.readAttr j = some (a j)) →
    ∃ t, exec (.decode sc ben bcol) s = .next t ∧ Answers s t 0 0 ∧
      SameRaw s.blk t.blk ∧ t.blk.err = s.blk.err ∧
      t.blk.imgValid = true ∧ (t.blk.scale.toNat : Int) = sc ∧ t.blk.borderEn = ben ∧
      t.blk.borderCol.toNat = bcol ∧ t.blk.flashOut = false ∧
      (t.blk.hasFlash = true ↔ ∃ j, j < 768 ∧ 128 ≤ (a j).toNat) ∧
      ∀ r c, t.blk.readCell r c = specImage sc.toNat ben bcol p a r c

/-- The image DECODE leaves is the one that the walk of R71 builds from the constructed image, pixel by pixel in
the order of R74 (the model computes it by the closed form of R77, log entry 8). -/
def Obligations.DecodeEqualsThePixelWalk : Prop :=
  ∀ (s : State) (sc : Int) (ben : Bool) (bcol : Nat), OptionsOk sc bcol → LengthOk s.blk → RawFilled s.blk →
    ∃ t b, exec (.decode sc ben bcol) s = .next t ∧
      walk (s.blk.construct sc.toNat ben (BitVec.ofNat 4 bcol)) = some b ∧
      (∀ r c, t.blk.readCell r c = b.readCell r c) ∧
      t.blk = { b with grid := t.blk.grid, hasFlash := t.blk.hasFlash }

/-- After a successful DECODE, `HASFLASH` is 1 exactly when at least one of the 768 bytes of `ATTR` has bit 7 set
(R76; the spec's decision D28). -/
def Obligations.HasflashAfterDecodeMeansSomeFlashByte : Prop :=
  ∀ (s t : State) (sc : Int) (ben : Bool) (bcol : Nat),
    exec (.decode sc ben bcol) s = .next t → Answers s t 0 0 →
    (t.blk.hasFlash = true ↔ ∃ j v, j < 768 ∧ t.blk.readAttr j = some v ∧ v.getLsbD 7 = true)

/-- After a successful DECODE another one, with any legal options, succeeds without pushing again, and leaves what
it would have left from the state before the first (R71, corner case c). -/
def Obligations.DecodeAgainNeedsNoReload : Prop :=
  ∀ (s t : State) (sc sc' : Int) (ben ben' : Bool) (bcol bcol' : Nat),
    exec (.decode sc ben bcol) s = .next t → Answers s t 0 0 → OptionsOk sc' bcol' →
    ∃ u u', exec (.decode sc' ben' bcol') t = .next u ∧ exec (.decode sc' ben' bcol') s = .next u' ∧
      Answers t u 0 0 ∧ u.blk = u'.blk

/-- The whole conversion: any 6912 bytes pushed into a block at reset and decoded with legal options leave the
image of R77 for that stream, and the flag of R76 (R33, R70, R71, R113; it rests on the spec's general-knowledge
passages G1 and G2, log entry 13). -/
def Obligations.ConversionGivesTheImageOfTheStream : Prop :=
  ∀ (s : State) (bytes : List Byte) (sc : Int) (ben : Bool) (bcol : Nat),
    s.blk = Block.reset → bytes.length = 6912 → OptionsOk sc bcol →
    ∃ t u, pushAll bytes s = some t ∧ exec (.decode sc ben bcol) t = .next u ∧ Answers t u 0 0 ∧
      u.blk.err = 0 ∧ u.blk.imgValid = true ∧
      (u.blk.hasFlash = true ↔ ∃ k v, 6144 ≤ k ∧ bytes[k]? = some v ∧ 128 ≤ v.toNat) ∧
      ∀ r c, u.blk.readCell r c =
        specImage sc.toNat ben bcol (fun i => bytes.getD i 0) (fun j => bytes.getD (6144 + j) 0) r c

/-- STAT answers the fields of R25 at their places and changes nothing (R78; the spec's decision D22). -/
def Obligations.StatAnswersTheStatusFields : Prop :=
  ∀ s : State, ∃ t d, exec .stat s = .next t ∧ Answers s t 0 d ∧ t.blk = s.blk ∧
    d.toNat = s.blk.err.toNat + 2 ^ 4 * s.blk.imgValid.toNat + 2 ^ 5 * s.blk.hasFlash.toNat +
      2 ^ 6 * s.blk.flashOut.toNat + 2 ^ 7 * s.blk.rxOvf.toNat + 2 ^ 8 * s.blk.borderEn.toNat +
      2 ^ 9 * s.blk.scale.toNat + 2 ^ 12 * s.blk.borderCol.toNat + 2 ^ 16 * s.blk.rxCnt.toNat

/-! ### frame_buffer_compositor -/

/-- NEW with a legal border colour makes an image of the clamped scale in which every cell of the grid is the
border cell, and leaves the raw screen and `ERR` (R83, R81, R82; interior cells by the spec's decision D12, log
entry 12). -/
def Obligations.NewBuildsAnImageOfBorderCells : Prop :=
  ∀ (s : State) (sc : Int) (ben : Bool) (bcol : Nat), bcol ≤ 15 →
    ∃ t, exec (.new sc ben bcol) s = .next t ∧ Answers s t 0 0 ∧ SameRaw s.blk t.blk ∧ t.blk.err = s.blk.err ∧
      t.blk.imgValid = true ∧ t.blk.borderEn = ben ∧ t.blk.borderCol.toNat = bcol ∧
      t.blk.flashOut = false ∧ t.blk.hasFlash = false ∧
      (sc ≤ 0 → t.blk.scale = 1) ∧ (4 < sc → t.blk.scale = 4) ∧
      (1 ≤ sc ∧ sc ≤ 4 → (t.blk.scale.toNat : Int) = sc) ∧
      ∀ r c, t.blk.readCell r c =
        if r < specH t.blk.scale.toNat ben ∧ c < specW t.blk.scale.toNat ben then some (specBorderCell bcol)
        else none

/-- SET fills the `s × s` block of its logical pixel, offset by the border, with its cell; every other cell and all
other state stay, `HASFLASH` among them (R84, R85; the spec's decision D15). -/
def Obligations.SetFillsTheBlockOfThePixel : Prop :=
  ∀ (s : State) (x y : Nat) (attr : Byte) (ink : Bool), s.blk.imgValid = true → x < 256 → y < 192 →
    ∃ t, exec (.set x y attr ink) s = .next t ∧ Answers s t 0 0 ∧
      (∀ r c, InBlock s.blk x y r c → t.blk.readCell r c = some (specCell ink attr)) ∧
      (∀ r c, ¬ InBlock s.blk x y r c → t.blk.readCell r c = s.blk.readCell r c) ∧
      t.blk = { s.blk with grid := t.blk.grid }

/-- The blocks of the logical pixels lie in the grid outside the border, are disjoint, and tile the scaled screen
(R84, an inference the spec marks as derived). -/
def Obligations.BlocksTileTheScaledScreen : Prop :=
  ∀ (b : Block) (r c : Nat), 1 ≤ b.scale.toNat →
    (b.OnScaledScreen r c ↔ ∃ x y, x < 256 ∧ y < 192 ∧ (r, c) ∈ b.blockCells x y) ∧
    (∀ x y x' y', (r, c) ∈ b.blockCells x y → (r, c) ∈ b.blockCells x' y' → x = x' ∧ y = y') ∧
    (b.OnScaledScreen r c → r < specH b.scale.toNat b.borderEn ∧ c < specW b.scale.toNat b.borderEn)

/-- With an image GET never errs, for any coordinates: inside the grid it answers the colour of the cell under the
flash switch, outside the border colour, and it changes nothing (R86; the spec's decision D14; the colours are log
entry 6; coordinates beyond the 14-bit field, which no word carries, are log entry 10). -/
def Obligations.GetAnswersCellOrBorderColour : Prop :=
  ∀ (s : State) (x y : Int), s.blk.imgValid = true →
    ∃ t d, exec (.get x y) s = .next t ∧ Answers s t 0 d ∧ t.blk = s.blk ∧
      ((0 ≤ x ∧ x < specW s.blk.scale.toNat s.blk.borderEn) ∧ 0 ≤ y ∧ y < specH s.blk.scale.toNat s.blk.borderEn →
        ∃ v, s.blk.readCell y.toNat x.toNat = some v ∧ d = specCellColour v s.blk.flashOut) ∧
      (¬ ((0 ≤ x ∧ x < specW s.blk.scale.toNat s.blk.borderEn) ∧
          0 ≤ y ∧ y < specH s.blk.scale.toNat s.blk.borderEn) →
        d = specEntry s.blk.borderCol.toNat)

/-- A GET after a SET sees the cell: any grid coordinate of the pixel's block shows the colour of the pair that was
set (R41, R85, R86; the colours are log entry 6). -/
def Obligations.GetAfterSetShowsTheColour : Prop :=
  ∀ (s t : State) (x y r c : Nat) (attr : Byte) (ink : Bool), s.blk.imgValid = true → x < 256 → y < 192 →
    InBlock s.blk x y r c → exec (.set x y attr ink) s = .next t →
    ∃ u, exec (.get c r) t = .next u ∧ Answers t u 0 (specColour attr.toNat ink s.blk.flashOut)

/-- Where the border region holds the border cell, GET there answers the border colour under either value of the
flash switch: the border never flashes (R86 corner case c; that the border cell resolves to `PALETTE[bc]` under both
values is R82's, an inference the spec marks as derived; the colours are log entry 6). -/
def Obligations.BorderNeverFlashes : Prop :=
  ∀ (s : State) (r c : Nat) (en : Bool), s.blk.imgValid = true → s.blk.BorderOk →
    r < s.blk.height → c < s.blk.width → ¬ s.blk.OnScaledScreen r c →
    ∃ t u, exec (.setflash en) s = .next t ∧ exec (.get c r) t = .next u ∧
      Answers t u 0 (specEntry s.blk.borderCol.toNat)

/-- The same GET with the switch off and on differs exactly when the cell's attribute has FLASH set and its ink and
paper differ (R86 corner case d, an inference the spec marks as derived; that two indices of one half show different
colours rests on the palette of log entry 6). -/
def Obligations.FlashSwitchShowsExactlyOnFlashingCells : Prop :=
  ∀ (s : State) (r c : Nat) (v : GridCell), s.blk.imgValid = true → s.blk.readCell r c = some v →
    ∃ t₀ t₁ u₀ u₁ d₀ d₁,
      exec (.setflash false) s = .next t₀ ∧ exec (.get c r) t₀ = .next u₀ ∧ Answers t₀ u₀ 0 d₀ ∧
      exec (.setflash true) s = .next t₁ ∧ exec (.get c r) t₁ = .next u₁ ∧ Answers t₁ u₁ 0 d₁ ∧
      (d₀ ≠ d₁ ↔ v.toNat / 128 % 2 = 1 ∧ v.toNat % 8 ≠ v.toNat / 8 % 8)

/-- BOUNDS answers the grid's width in 15:0 and height in 31:16, from the formulas of R80, and changes nothing
(R87). -/
def Obligations.BoundsAnswersTheGridSize : Prop :=
  ∀ s : State, s.blk.imgValid = true → ∃ t d, exec .bounds s = .next t ∧ Answers s t 0 d ∧ t.blk = s.blk ∧
    d.toNat = specW s.blk.scale.toNat s.blk.borderEn + 2 ^ 16 * specH s.blk.scale.toNat s.blk.borderEn

/-- SETFLASH writes the switch and nothing else; HASFLASH answers the flag in bit 0 and changes nothing (R88,
R89). -/
def Obligations.SetflashWritesAndHasflashReads : Prop :=
  (∀ (s : State) (en : Bool), s.blk.imgValid = true → ∃ t, exec (.setflash en) s = .next t ∧
    Answers s t 0 0 ∧ t.blk = { s.blk with flashOut := en }) ∧
  (∀ s : State, s.blk.imgValid = true → ∃ t d, exec .hasflash s = .next t ∧ Answers s t 0 d ∧
    t.blk = s.blk ∧ d.toNat = if s.blk.hasFlash then 1 else 0)
end

