-- ==== Sys2Proof/Laws/Memory.lean ====
section
/-!
SUPPORT. The laws of a memory held as a sorted list: a read after a write, and that every memory operation
keeps the canonical form.
-/

namespace Sys2Proof.Machine

variable {α : Type}

@[simp] theorem Mem.lookup_nil (a : Nat) : Mem.lookup ([] : Mem α) a = none := rfl

theorem Mem.lookup_cons (k : Nat) (v : α) (m : Mem α) (a : Nat) :
    Mem.lookup ((k, v) :: m) a = if k = a then some v else Mem.lookup m a := rfl

theorem Mem.lookup_insert (a : Nat) (v : α) (m : Mem α) (a' : Nat) :
    Mem.lookup (Mem.insert a v m) a' = if a = a' then some v else Mem.lookup m a' := by
  induction m with
  | nil => rfl
  | cons e m ih =>
    obtain ⟨k, w⟩ := e
    unfold Mem.insert
    split
    · simp only [Mem.lookup_cons]
    · split
      · subst a
        simp only [Mem.lookup_cons]
        split <;> rfl
      · rename_i hk hne
        simp only [Mem.lookup_cons, ih]
        by_cases h : k = a'
        · subst h
          simp [hne]
        · simp [h]

theorem Mem.lookup_erase (a : Nat) (m : Mem α) (a' : Nat) :
    Mem.lookup (Mem.erase a m) a' = if a = a' then none else Mem.lookup m a' := by
  induction m with
  | nil => simp [Mem.erase]
  | cons e m ih =>
    obtain ⟨k, w⟩ := e
    by_cases hk : k = a
    · subst hk
      have he : Mem.erase k ((k, w) :: m) = Mem.erase k m := by simp [Mem.erase]
      rw [he, ih, Mem.lookup_cons]
      split <;> rfl
    · have he : Mem.erase a ((k, w) :: m) = (k, w) :: Mem.erase a m := by simp [Mem.erase, hk]
      rw [he, Mem.lookup_cons, Mem.lookup_cons, ih]
      by_cases h : k = a'
      · subst h
        simp [Ne.symm hk]
      · simp [h]

/-- A read after a write, with the value unlisted units read as. -/
theorem Mem.read_write [DecidableEq α] (d : Option α) (m : Mem α) (a a' : Nat) (v : α) :
    (Mem.lookup (Mem.write d m a v) a').or d = if a = a' then some v else (Mem.lookup m a').or d := by
  unfold Mem.write
  by_cases hd : d = some v
  · rw [if_pos hd, Mem.lookup_erase]
    by_cases ha : a = a' <;> simp [ha, hd]
  · rw [if_neg hd, Mem.lookup_insert]
    by_cases ha : a = a' <;> simp [ha]

/-- A read after a write, where unlisted units have no value. -/
theorem Mem.lookup_write_none [DecidableEq α] (m : Mem α) (a a' : Nat) (v : α) :
    Mem.lookup (Mem.write none m a v) a' = if a = a' then some v else Mem.lookup m a' := by
  simpa using Mem.read_write none m a a' v

theorem Mem.mem_insert {a : Nat} {v : α} {m : Mem α} {e : Nat × α} (h : e ∈ Mem.insert a v m) :
    e = (a, v) ∨ e ∈ m := by
  induction m with
  | nil => simpa [Mem.insert] using h
  | cons f m ih =>
    obtain ⟨k, w⟩ := f
    unfold Mem.insert at h
    split at h
    · simpa using h
    · split at h
      · rcases List.mem_cons.mp h with h | h
        · exact .inl h
        · exact .inr (List.mem_cons_of_mem _ h)
      · rcases List.mem_cons.mp h with h | h
        · exact .inr (h ▸ List.mem_cons_self)
        · exact (ih h).imp id (List.mem_cons_of_mem _)

theorem Mem.insert_sorted {a : Nat} {v : α} {m : Mem α} (h : m.Pairwise (fun e f => e.1 < f.1)) :
    (Mem.insert a v m).Pairwise (fun e f => e.1 < f.1) := by
  induction m with
  | nil => simp [Mem.insert]
  | cons f m ih =>
    obtain ⟨k, w⟩ := f
    obtain ⟨hk, hm⟩ := List.pairwise_cons.mp h
    unfold Mem.insert
    split
    · rename_i hlt
      refine List.pairwise_cons.mpr ⟨fun e he => ?_, h⟩
      rcases List.mem_cons.mp he with rfl | he
      · exact hlt
      · exact Nat.lt_trans hlt (hk e he)
    · split
      · subst a
        exact List.pairwise_cons.mpr ⟨hk, hm⟩
      · refine List.pairwise_cons.mpr ⟨fun e he => ?_, ih hm⟩
        rcases Mem.mem_insert he with rfl | he
        · simp only
          omega
        · exact hk e he

/-- Writing at a legal index keeps the canonical form. -/
theorem Mem.write_wf [DecidableEq α] {d : Option α} {legal : Nat → Bool} {m : Mem α} {a : Nat} {v : α}
    (h : Mem.Wf d legal m) (ha : legal a = true) : Mem.Wf d legal (Mem.write d m a v) := by
  unfold Mem.write
  by_cases hd : d = some v
  · rw [if_pos hd]
    exact ⟨h.1.filter _, fun e he => h.2 e (List.mem_of_mem_filter he)⟩
  · rw [if_neg hd]
    refine ⟨Mem.insert_sorted h.1, fun e he => ?_⟩
    rcases Mem.mem_insert he with rfl | he
    · exact ⟨ha, hd⟩
    · exact h.2 e he

theorem Mem.nil_wf [DecidableEq α] (d : Option α) (legal : Nat → Bool) : Mem.Wf d legal ([] : Mem α) := by
  simp [Mem.Wf]

theorem Mem.lookup_mem {m : Mem α} {a : Nat} {v : α} (h : Mem.lookup m a = some v) : (a, v) ∈ m := by
  induction m with
  | nil => simp at h
  | cons e m ih =>
    obtain ⟨k, w⟩ := e
    rw [Mem.lookup_cons] at h
    split at h
    · rename_i hk
      simp_all
    · exact List.mem_cons_of_mem _ (ih h)

theorem Mem.lookup_of_mem {m : Mem α} (hm : m.Pairwise (fun e f => e.1 < f.1)) {a : Nat} {v : α}
    (h : (a, v) ∈ m) : Mem.lookup m a = some v := by
  induction m with
  | nil => simp at h
  | cons e m ih =>
    obtain ⟨k, w⟩ := e
    obtain ⟨hk, hm⟩ := List.pairwise_cons.mp hm
    rw [Mem.lookup_cons]
    rcases List.mem_cons.mp h with h | h
    · simp_all
    · have := hk _ h
      rw [if_neg (by simp only at this; omega)]
      exact ih hm h

/-- A memory that lists the first `n` indices reads as it is listed. -/
theorem Mem.lookup_map_range (f : Nat → α) (n a : Nat) :
    Mem.lookup ((List.range n).map fun i => (i, f i)) a = if a < n then some (f a) else none := by
  have hs : ((List.range n).map fun i => (i, f i)).Pairwise (fun e e' => e.1 < e'.1) :=
    List.pairwise_map.mpr (by simpa using List.pairwise_lt_range)
  split
  · rename_i h
    exact Mem.lookup_of_mem hs (List.mem_map.mpr ⟨a, List.mem_range.mpr h, rfl⟩)
  · rename_i h
    cases hl : Mem.lookup ((List.range n).map fun i => (i, f i)) a with
    | none => rfl
    | some v =>
      obtain ⟨i, hi, he⟩ := List.mem_map.mp (Mem.lookup_mem hl)
      cases he
      exact absurd (List.mem_range.mp hi) h

end Sys2Proof.Machine
end

