-- ==== Sys2Proof/Laws/State.lean ====
section
/-!
SUPPORT. One lemma per field per update of the state, so that no proof unfolds a record update.
-/

namespace Sys2Proof.Machine

variable (b : Block) (s : State)

/-! ### Block.storePix -/

@[simp] theorem Block.storePix_pix (i : Nat) (v : Byte) :
    (b.storePix i v).pix = Mem.write none b.pix i v := rfl
@[simp] theorem Block.storePix_attr (i : Nat) (v : Byte) :
    (b.storePix i v).attr = b.attr := rfl
@[simp] theorem Block.storePix_rxCnt (i : Nat) (v : Byte) :
    (b.storePix i v).rxCnt = b.rxCnt := rfl
@[simp] theorem Block.storePix_rxOvf (i : Nat) (v : Byte) :
    (b.storePix i v).rxOvf = b.rxOvf := rfl
@[simp] theorem Block.storePix_grid (i : Nat) (v : Byte) :
    (b.storePix i v).grid = b.grid := rfl
@[simp] theorem Block.storePix_imgValid (i : Nat) (v : Byte) :
    (b.storePix i v).imgValid = b.imgValid := rfl
@[simp] theorem Block.storePix_scale (i : Nat) (v : Byte) :
    (b.storePix i v).scale = b.scale := rfl
@[simp] theorem Block.storePix_borderEn (i : Nat) (v : Byte) :
    (b.storePix i v).borderEn = b.borderEn := rfl
@[simp] theorem Block.storePix_borderCol (i : Nat) (v : Byte) :
    (b.storePix i v).borderCol = b.borderCol := rfl
@[simp] theorem Block.storePix_flashOut (i : Nat) (v : Byte) :
    (b.storePix i v).flashOut = b.flashOut := rfl
@[simp] theorem Block.storePix_hasFlash (i : Nat) (v : Byte) :
    (b.storePix i v).hasFlash = b.hasFlash := rfl
@[simp] theorem Block.storePix_err (i : Nat) (v : Byte) :
    (b.storePix i v).err = b.err := rfl

/-! ### Block.storeAttr -/

@[simp] theorem Block.storeAttr_pix (i : Nat) (v : Byte) :
    (b.storeAttr i v).pix = b.pix := rfl
@[simp] theorem Block.storeAttr_attr (i : Nat) (v : Byte) :
    (b.storeAttr i v).attr = Mem.write none b.attr i v := rfl
@[simp] theorem Block.storeAttr_rxCnt (i : Nat) (v : Byte) :
    (b.storeAttr i v).rxCnt = b.rxCnt := rfl
@[simp] theorem Block.storeAttr_rxOvf (i : Nat) (v : Byte) :
    (b.storeAttr i v).rxOvf = b.rxOvf := rfl
@[simp] theorem Block.storeAttr_grid (i : Nat) (v : Byte) :
    (b.storeAttr i v).grid = b.grid := rfl
@[simp] theorem Block.storeAttr_imgValid (i : Nat) (v : Byte) :
    (b.storeAttr i v).imgValid = b.imgValid := rfl
@[simp] theorem Block.storeAttr_scale (i : Nat) (v : Byte) :
    (b.storeAttr i v).scale = b.scale := rfl
@[simp] theorem Block.storeAttr_borderEn (i : Nat) (v : Byte) :
    (b.storeAttr i v).borderEn = b.borderEn := rfl
@[simp] theorem Block.storeAttr_borderCol (i : Nat) (v : Byte) :
    (b.storeAttr i v).borderCol = b.borderCol := rfl
@[simp] theorem Block.storeAttr_flashOut (i : Nat) (v : Byte) :
    (b.storeAttr i v).flashOut = b.flashOut := rfl
@[simp] theorem Block.storeAttr_hasFlash (i : Nat) (v : Byte) :
    (b.storeAttr i v).hasFlash = b.hasFlash := rfl
@[simp] theorem Block.storeAttr_err (i : Nat) (v : Byte) :
    (b.storeAttr i v).err = b.err := rfl

/-! ### Block.countByte -/

@[simp] theorem Block.countByte_pix :
    (b.countByte).pix = b.pix := rfl
@[simp] theorem Block.countByte_attr :
    (b.countByte).attr = b.attr := rfl
@[simp] theorem Block.countByte_rxCnt :
    (b.countByte).rxCnt = b.rxCnt + 1 := rfl
@[simp] theorem Block.countByte_rxOvf :
    (b.countByte).rxOvf = b.rxOvf := rfl
@[simp] theorem Block.countByte_grid :
    (b.countByte).grid = b.grid := rfl
@[simp] theorem Block.countByte_imgValid :
    (b.countByte).imgValid = b.imgValid := rfl
@[simp] theorem Block.countByte_scale :
    (b.countByte).scale = b.scale := rfl
@[simp] theorem Block.countByte_borderEn :
    (b.countByte).borderEn = b.borderEn := rfl
@[simp] theorem Block.countByte_borderCol :
    (b.countByte).borderCol = b.borderCol := rfl
@[simp] theorem Block.countByte_flashOut :
    (b.countByte).flashOut = b.flashOut := rfl
@[simp] theorem Block.countByte_hasFlash :
    (b.countByte).hasFlash = b.hasFlash := rfl
@[simp] theorem Block.countByte_err :
    (b.countByte).err = b.err := rfl

/-! ### Block.noteOverflow -/

@[simp] theorem Block.noteOverflow_pix :
    (b.noteOverflow).pix = b.pix := rfl
@[simp] theorem Block.noteOverflow_attr :
    (b.noteOverflow).attr = b.attr := rfl
@[simp] theorem Block.noteOverflow_rxCnt :
    (b.noteOverflow).rxCnt = b.rxCnt := rfl
@[simp] theorem Block.noteOverflow_rxOvf :
    (b.noteOverflow).rxOvf = true := rfl
@[simp] theorem Block.noteOverflow_grid :
    (b.noteOverflow).grid = b.grid := rfl
@[simp] theorem Block.noteOverflow_imgValid :
    (b.noteOverflow).imgValid = b.imgValid := rfl
@[simp] theorem Block.noteOverflow_scale :
    (b.noteOverflow).scale = b.scale := rfl
@[simp] theorem Block.noteOverflow_borderEn :
    (b.noteOverflow).borderEn = b.borderEn := rfl
@[simp] theorem Block.noteOverflow_borderCol :
    (b.noteOverflow).borderCol = b.borderCol := rfl
@[simp] theorem Block.noteOverflow_flashOut :
    (b.noteOverflow).flashOut = b.flashOut := rfl
@[simp] theorem Block.noteOverflow_hasFlash :
    (b.noteOverflow).hasFlash = b.hasFlash := rfl
@[simp] theorem Block.noteOverflow_err :
    (b.noteOverflow).err = b.err := rfl

/-! ### Block.writeCell -/

@[simp] theorem Block.writeCell_pix (r c : Nat) (v : GridCell) :
    (b.writeCell r c v).pix = b.pix := rfl
@[simp] theorem Block.writeCell_attr (r c : Nat) (v : GridCell) :
    (b.writeCell r c v).attr = b.attr := rfl
@[simp] theorem Block.writeCell_rxCnt (r c : Nat) (v : GridCell) :
    (b.writeCell r c v).rxCnt = b.rxCnt := rfl
@[simp] theorem Block.writeCell_rxOvf (r c : Nat) (v : GridCell) :
    (b.writeCell r c v).rxOvf = b.rxOvf := rfl
@[simp] theorem Block.writeCell_grid (r c : Nat) (v : GridCell) :
    (b.writeCell r c v).grid = Mem.write b.gridFill b.grid (cellIndex r c) v := rfl
@[simp] theorem Block.writeCell_imgValid (r c : Nat) (v : GridCell) :
    (b.writeCell r c v).imgValid = b.imgValid := rfl
@[simp] theorem Block.writeCell_scale (r c : Nat) (v : GridCell) :
    (b.writeCell r c v).scale = b.scale := rfl
@[simp] theorem Block.writeCell_borderEn (r c : Nat) (v : GridCell) :
    (b.writeCell r c v).borderEn = b.borderEn := rfl
@[simp] theorem Block.writeCell_borderCol (r c : Nat) (v : GridCell) :
    (b.writeCell r c v).borderCol = b.borderCol := rfl
@[simp] theorem Block.writeCell_flashOut (r c : Nat) (v : GridCell) :
    (b.writeCell r c v).flashOut = b.flashOut := rfl
@[simp] theorem Block.writeCell_hasFlash (r c : Nat) (v : GridCell) :
    (b.writeCell r c v).hasFlash = b.hasFlash := rfl
@[simp] theorem Block.writeCell_err (r c : Nat) (v : GridCell) :
    (b.writeCell r c v).err = b.err := rfl

/-! ### Block.construct -/

@[simp] theorem Block.construct_pix (s : Nat) (ben : Bool) (bc : BitVec 4) :
    (b.construct s ben bc).pix = b.pix := rfl
@[simp] theorem Block.construct_attr (s : Nat) (ben : Bool) (bc : BitVec 4) :
    (b.construct s ben bc).attr = b.attr := rfl
@[simp] theorem Block.construct_rxCnt (s : Nat) (ben : Bool) (bc : BitVec 4) :
    (b.construct s ben bc).rxCnt = b.rxCnt := rfl
@[simp] theorem Block.construct_rxOvf (s : Nat) (ben : Bool) (bc : BitVec 4) :
    (b.construct s ben bc).rxOvf = b.rxOvf := rfl
@[simp] theorem Block.construct_grid (s : Nat) (ben : Bool) (bc : BitVec 4) :
    (b.construct s ben bc).grid = [] := rfl
@[simp] theorem Block.construct_imgValid (s : Nat) (ben : Bool) (bc : BitVec 4) :
    (b.construct s ben bc).imgValid = true := rfl
@[simp] theorem Block.construct_scale (s : Nat) (ben : Bool) (bc : BitVec 4) :
    (b.construct s ben bc).scale = BitVec.ofNat 3 s := rfl
@[simp] theorem Block.construct_borderEn (s : Nat) (ben : Bool) (bc : BitVec 4) :
    (b.construct s ben bc).borderEn = ben := rfl
@[simp] theorem Block.construct_borderCol (s : Nat) (ben : Bool) (bc : BitVec 4) :
    (b.construct s ben bc).borderCol = bc := rfl
@[simp] theorem Block.construct_flashOut (s : Nat) (ben : Bool) (bc : BitVec 4) :
    (b.construct s ben bc).flashOut = false := rfl
@[simp] theorem Block.construct_hasFlash (s : Nat) (ben : Bool) (bc : BitVec 4) :
    (b.construct s ben bc).hasFlash = false := rfl
@[simp] theorem Block.construct_err (s : Nat) (ben : Bool) (bc : BitVec 4) :
    (b.construct s ben bc).err = b.err := rfl

/-! ### Block.decodeScreen -/

@[simp] theorem Block.decodeScreen_pix (s : Nat) (ben : Bool) (bc : BitVec 4) (raw : RawScreen) :
    (b.decodeScreen s ben bc raw).pix = b.pix := rfl
@[simp] theorem Block.decodeScreen_attr (s : Nat) (ben : Bool) (bc : BitVec 4) (raw : RawScreen) :
    (b.decodeScreen s ben bc raw).attr = b.attr := rfl
@[simp] theorem Block.decodeScreen_rxCnt (s : Nat) (ben : Bool) (bc : BitVec 4) (raw : RawScreen) :
    (b.decodeScreen s ben bc raw).rxCnt = b.rxCnt := rfl
@[simp] theorem Block.decodeScreen_rxOvf (s : Nat) (ben : Bool) (bc : BitVec 4) (raw : RawScreen) :
    (b.decodeScreen s ben bc raw).rxOvf = b.rxOvf := rfl
@[simp] theorem Block.decodeScreen_grid (s : Nat) (ben : Bool) (bc : BitVec 4) (raw : RawScreen) :
    (b.decodeScreen s ben bc raw).grid = (b.construct s ben bc).screenCells raw := rfl
@[simp] theorem Block.decodeScreen_imgValid (s : Nat) (ben : Bool) (bc : BitVec 4) (raw : RawScreen) :
    (b.decodeScreen s ben bc raw).imgValid = true := rfl
@[simp] theorem Block.decodeScreen_scale (s : Nat) (ben : Bool) (bc : BitVec 4) (raw : RawScreen) :
    (b.decodeScreen s ben bc raw).scale = BitVec.ofNat 3 s := rfl
@[simp] theorem Block.decodeScreen_borderEn (s : Nat) (ben : Bool) (bc : BitVec 4) (raw : RawScreen) :
    (b.decodeScreen s ben bc raw).borderEn = ben := rfl
@[simp] theorem Block.decodeScreen_borderCol (s : Nat) (ben : Bool) (bc : BitVec 4) (raw : RawScreen) :
    (b.decodeScreen s ben bc raw).borderCol = bc := rfl
@[simp] theorem Block.decodeScreen_flashOut (s : Nat) (ben : Bool) (bc : BitVec 4) (raw : RawScreen) :
    (b.decodeScreen s ben bc raw).flashOut = false := rfl
@[simp] theorem Block.decodeScreen_hasFlash (s : Nat) (ben : Bool) (bc : BitVec 4) (raw : RawScreen) :
    (b.decodeScreen s ben bc raw).hasFlash = raw.anyFlash := rfl
@[simp] theorem Block.decodeScreen_err (s : Nat) (ben : Bool) (bc : BitVec 4) (raw : RawScreen) :
    (b.decodeScreen s ben bc raw).err = b.err := rfl

/-! ### Block.switchFlash -/

@[simp] theorem Block.switchFlash_pix (en : Bool) :
    (b.switchFlash en).pix = b.pix := rfl
@[simp] theorem Block.switchFlash_attr (en : Bool) :
    (b.switchFlash en).attr = b.attr := rfl
@[simp] theorem Block.switchFlash_rxCnt (en : Bool) :
    (b.switchFlash en).rxCnt = b.rxCnt := rfl
@[simp] theorem Block.switchFlash_rxOvf (en : Bool) :
    (b.switchFlash en).rxOvf = b.rxOvf := rfl
@[simp] theorem Block.switchFlash_grid (en : Bool) :
    (b.switchFlash en).grid = b.grid := rfl
@[simp] theorem Block.switchFlash_imgValid (en : Bool) :
    (b.switchFlash en).imgValid = b.imgValid := rfl
@[simp] theorem Block.switchFlash_scale (en : Bool) :
    (b.switchFlash en).scale = b.scale := rfl
@[simp] theorem Block.switchFlash_borderEn (en : Bool) :
    (b.switchFlash en).borderEn = b.borderEn := rfl
@[simp] theorem Block.switchFlash_borderCol (en : Bool) :
    (b.switchFlash en).borderCol = b.borderCol := rfl
@[simp] theorem Block.switchFlash_flashOut (en : Bool) :
    (b.switchFlash en).flashOut = en := rfl
@[simp] theorem Block.switchFlash_hasFlash (en : Bool) :
    (b.switchFlash en).hasFlash = b.hasFlash := rfl
@[simp] theorem Block.switchFlash_err (en : Bool) :
    (b.switchFlash en).err = b.err := rfl

/-! ### Block.latchErr -/

@[simp] theorem Block.latchErr_pix (e : Error) :
    (b.latchErr e).pix = b.pix := rfl
@[simp] theorem Block.latchErr_attr (e : Error) :
    (b.latchErr e).attr = b.attr := rfl
@[simp] theorem Block.latchErr_rxCnt (e : Error) :
    (b.latchErr e).rxCnt = b.rxCnt := rfl
@[simp] theorem Block.latchErr_rxOvf (e : Error) :
    (b.latchErr e).rxOvf = b.rxOvf := rfl
@[simp] theorem Block.latchErr_grid (e : Error) :
    (b.latchErr e).grid = b.grid := rfl
@[simp] theorem Block.latchErr_imgValid (e : Error) :
    (b.latchErr e).imgValid = b.imgValid := rfl
@[simp] theorem Block.latchErr_scale (e : Error) :
    (b.latchErr e).scale = b.scale := rfl
@[simp] theorem Block.latchErr_borderEn (e : Error) :
    (b.latchErr e).borderEn = b.borderEn := rfl
@[simp] theorem Block.latchErr_borderCol (e : Error) :
    (b.latchErr e).borderCol = b.borderCol := rfl
@[simp] theorem Block.latchErr_flashOut (e : Error) :
    (b.latchErr e).flashOut = b.flashOut := rfl
@[simp] theorem Block.latchErr_hasFlash (e : Error) :
    (b.latchErr e).hasFlash = b.hasFlash := rfl
@[simp] theorem Block.latchErr_err (e : Error) :
    (b.latchErr e).err = if b.err = 0 then errorCode e else b.err := rfl

/-! ### The block after reset -/

@[simp] theorem Block.reset_pix : Block.reset.pix = [] := rfl
@[simp] theorem Block.reset_attr : Block.reset.attr = [] := rfl
@[simp] theorem Block.reset_rxCnt : Block.reset.rxCnt = 0 := rfl
@[simp] theorem Block.reset_rxOvf : Block.reset.rxOvf = false := rfl
@[simp] theorem Block.reset_grid : Block.reset.grid = [] := rfl
@[simp] theorem Block.reset_imgValid : Block.reset.imgValid = false := rfl
@[simp] theorem Block.reset_scale : Block.reset.scale = 0 := rfl
@[simp] theorem Block.reset_borderEn : Block.reset.borderEn = false := rfl
@[simp] theorem Block.reset_borderCol : Block.reset.borderCol = 0 := rfl
@[simp] theorem Block.reset_flashOut : Block.reset.flashOut = false := rfl
@[simp] theorem Block.reset_hasFlash : Block.reset.hasFlash = false := rfl
@[simp] theorem Block.reset_err : Block.reset.err = 0 := rfl
@[simp] theorem State.reset_blk : State.reset.blk = Block.reset := rfl
@[simp] theorem State.reset_commands : State.reset.commands = [] := rfl
@[simp] theorem State.reset_responses : State.reset.responses = [] := rfl

/-! ### Updates of the machine state -/

@[simp] theorem State.present_blk (w : Word) :
    (s.present w).blk = s.blk := rfl
@[simp] theorem State.present_commands (w : Word) :
    (s.present w).commands = w :: s.commands := rfl
@[simp] theorem State.present_responses (w : Word) :
    (s.present w).responses = s.responses := rfl
@[simp] theorem State.withBlk_blk (c : Block) :
    (s.withBlk c).blk = c := rfl
@[simp] theorem State.withBlk_commands (c : Block) :
    (s.withBlk c).commands = s.commands := rfl
@[simp] theorem State.withBlk_responses (c : Block) :
    (s.withBlk c).responses = s.responses := rfl
@[simp] theorem State.answer_blk (e : BitVec 4) (d : Word) :
    (s.answer e d).blk = s.blk := rfl
@[simp] theorem State.answer_commands (e : BitVec 4) (d : Word) :
    (s.answer e d).commands = s.commands := rfl
@[simp] theorem State.answer_responses (e : BitVec 4) (d : Word) :
    (s.answer e d).responses = s.responses ++ [⟨e, d⟩] := rfl
@[simp] theorem State.respond_blk (d : Word) :
    (s.respond d).blk = s.blk := rfl
@[simp] theorem State.respond_commands (d : Word) :
    (s.respond d).commands = s.commands := rfl
@[simp] theorem State.respond_responses (d : Word) :
    (s.respond d).responses = s.responses ++ [⟨0, d⟩] := rfl
@[simp] theorem State.raise_blk (e : Error) (d : Word) :
    (s.raise e d).blk = s.blk.latchErr e := rfl
@[simp] theorem State.raise_commands (e : Error) (d : Word) :
    (s.raise e d).commands = s.commands := rfl
@[simp] theorem State.raise_responses (e : Error) (d : Word) :
    (s.raise e d).responses = s.responses ++ [⟨errorCode e, d⟩] := rfl

/-! ### What the updates leave alone of the geometry and the fill of the grid -/

@[simp] theorem Block.storePix_bw (i : Nat) (v : Byte) :
    (b.storePix i v).bw = b.bw := rfl
@[simp] theorem Block.storePix_bh (i : Nat) (v : Byte) :
    (b.storePix i v).bh = b.bh := rfl
@[simp] theorem Block.storePix_width (i : Nat) (v : Byte) :
    (b.storePix i v).width = b.width := rfl
@[simp] theorem Block.storePix_height (i : Nat) (v : Byte) :
    (b.storePix i v).height = b.height := rfl
@[simp] theorem Block.storePix_gridFill (i : Nat) (v : Byte) :
    (b.storePix i v).gridFill = b.gridFill := rfl
@[simp] theorem Block.storeAttr_bw (i : Nat) (v : Byte) :
    (b.storeAttr i v).bw = b.bw := rfl
@[simp] theorem Block.storeAttr_bh (i : Nat) (v : Byte) :
    (b.storeAttr i v).bh = b.bh := rfl
@[simp] theorem Block.storeAttr_width (i : Nat) (v : Byte) :
    (b.storeAttr i v).width = b.width := rfl
@[simp] theorem Block.storeAttr_height (i : Nat) (v : Byte) :
    (b.storeAttr i v).height = b.height := rfl
@[simp] theorem Block.storeAttr_gridFill (i : Nat) (v : Byte) :
    (b.storeAttr i v).gridFill = b.gridFill := rfl
@[simp] theorem Block.countByte_bw :
    (b.countByte).bw = b.bw := rfl
@[simp] theorem Block.countByte_bh :
    (b.countByte).bh = b.bh := rfl
@[simp] theorem Block.countByte_width :
    (b.countByte).width = b.width := rfl
@[simp] theorem Block.countByte_height :
    (b.countByte).height = b.height := rfl
@[simp] theorem Block.countByte_gridFill :
    (b.countByte).gridFill = b.gridFill := rfl
@[simp] theorem Block.noteOverflow_bw :
    (b.noteOverflow).bw = b.bw := rfl
@[simp] theorem Block.noteOverflow_bh :
    (b.noteOverflow).bh = b.bh := rfl
@[simp] theorem Block.noteOverflow_width :
    (b.noteOverflow).width = b.width := rfl
@[simp] theorem Block.noteOverflow_height :
    (b.noteOverflow).height = b.height := rfl
@[simp] theorem Block.noteOverflow_gridFill :
    (b.noteOverflow).gridFill = b.gridFill := rfl
@[simp] theorem Block.writeCell_bw (r c : Nat) (v : GridCell) :
    (b.writeCell r c v).bw = b.bw := rfl
@[simp] theorem Block.writeCell_bh (r c : Nat) (v : GridCell) :
    (b.writeCell r c v).bh = b.bh := rfl
@[simp] theorem Block.writeCell_width (r c : Nat) (v : GridCell) :
    (b.writeCell r c v).width = b.width := rfl
@[simp] theorem Block.writeCell_height (r c : Nat) (v : GridCell) :
    (b.writeCell r c v).height = b.height := rfl
@[simp] theorem Block.writeCell_gridFill (r c : Nat) (v : GridCell) :
    (b.writeCell r c v).gridFill = b.gridFill := rfl
@[simp] theorem Block.switchFlash_bw (en : Bool) :
    (b.switchFlash en).bw = b.bw := rfl
@[simp] theorem Block.switchFlash_bh (en : Bool) :
    (b.switchFlash en).bh = b.bh := rfl
@[simp] theorem Block.switchFlash_width (en : Bool) :
    (b.switchFlash en).width = b.width := rfl
@[simp] theorem Block.switchFlash_height (en : Bool) :
    (b.switchFlash en).height = b.height := rfl
@[simp] theorem Block.switchFlash_gridFill (en : Bool) :
    (b.switchFlash en).gridFill = b.gridFill := rfl
@[simp] theorem Block.latchErr_bw (e : Error) :
    (b.latchErr e).bw = b.bw := rfl
@[simp] theorem Block.latchErr_bh (e : Error) :
    (b.latchErr e).bh = b.bh := rfl
@[simp] theorem Block.latchErr_width (e : Error) :
    (b.latchErr e).width = b.width := rfl
@[simp] theorem Block.latchErr_height (e : Error) :
    (b.latchErr e).height = b.height := rfl
@[simp] theorem Block.latchErr_gridFill (e : Error) :
    (b.latchErr e).gridFill = b.gridFill := rfl

end Sys2Proof.Machine
end

