-- ==== Sys2Proof/Laws/Grid.lean ====
section
/-!
SUPPORT. The laws of the grid: what one cell reads as after a cell write, a block write, a construction and a
decode, and that the grid stays canonical.
-/

namespace Sys2Proof.Machine

/-! ### Geometry -/

theorem onScreen_iff (x y : Nat) : onScreen x y = true ↔ x < 256 ∧ y < 192 := by
  simp [onScreen]

theorem Block.scale_le (b : Block) : b.scale.toNat ≤ 7 := by
  have := b.scale.isLt
  omega

theorem Block.width_lt_stride (b : Block) : b.width < gridStride := by
  have := b.scale_le
  unfold Block.width gridW borderW gridStride
  split <;> omega

theorem cellIndex_inj {r c r' c' : Nat} (hc : c < gridStride) (hc' : c' < gridStride) :
    cellIndex r c = cellIndex r' c' ↔ r = r' ∧ c = c' := by
  unfold cellIndex
  unfold gridStride at *
  omega

theorem cellIndex_div (r : Nat) {c : Nat} (hc : c < gridStride) : cellIndex r c / gridStride = r := by
  unfold cellIndex
  unfold gridStride at *
  omega

theorem cellIndex_mod (r : Nat) {c : Nat} (hc : c < gridStride) : cellIndex r c % gridStride = c := by
  unfold cellIndex
  unfold gridStride at *
  omega

theorem Block.inGrid_iff (b : Block) (r c : Nat) : b.inGrid r c = true ↔ r < b.height ∧ c < b.width := by
  simp [Block.inGrid]

theorem Block.col_lt_stride {b : Block} {r c : Nat} (h : b.inGrid r c = true) : c < gridStride :=
  Nat.lt_trans ((b.inGrid_iff r c).mp h).2 b.width_lt_stride

/-- A live cell always has a value when an image exists. -/
theorem Block.readCell_isSome {b : Block} {r c : Nat} (hi : b.imgValid = true) (h : b.inGrid r c = true) :
    (b.readCell r c).isSome = true := by
  simp [Block.readCell, h, Block.gridFill, hi]

theorem Block.readCell_outside {b : Block} {r c : Nat} (h : b.inGrid r c = false) : b.readCell r c = none := by
  simp [Block.readCell, h]

/-! ### One cell -/

theorem Block.readCell_writeCell (b : Block) {r c : Nat} (v : GridCell) (h : b.inGrid r c = true) (r' c' : Nat) :
    (b.writeCell r c v).readCell r' c' = if r = r' ∧ c = c' then some v else b.readCell r' c' := by
  have hin : (b.writeCell r c v).inGrid r' c' = b.inGrid r' c' := rfl
  unfold Block.readCell
  rw [hin, Block.writeCell_grid, Block.writeCell_gridFill]
  by_cases h' : b.inGrid r' c' = true
  · rw [if_pos h', if_pos h', Mem.read_write]
    simp only [cellIndex_inj (Block.col_lt_stride h) (Block.col_lt_stride h')]
  · rw [if_neg h', if_neg h']
    by_cases he : r = r' ∧ c = c'
    · exact absurd (he.1 ▸ he.2 ▸ h) h'
    · rw [if_neg he]

theorem Block.readPix_writeCell (b : Block) (r c : Nat) (v : GridCell) (i : Nat) :
    (b.writeCell r c v).readPix i = b.readPix i := rfl

/-! ### Lists of cells and blocks -/

@[simp] theorem Block.writeCells_nil (b : Block) (v : GridCell) : b.writeCells [] v = b := rfl

theorem Block.writeCells_cons (b : Block) (rc : Nat × Nat) (l : List (Nat × Nat)) (v : GridCell) :
    b.writeCells (rc :: l) v = (b.writeCell rc.1 rc.2 v).writeCells l v := rfl

/-- Writing cells changes the grid alone. -/
theorem Block.writeCells_eq (b : Block) (l : List (Nat × Nat)) (v : GridCell) :
    b.writeCells l v = { b with grid := (b.writeCells l v).grid } := by
  induction l generalizing b with
  | nil => rfl
  | cons rc l ih =>
    rw [Block.writeCells_cons, ih]
    rfl

/-- A block write changes the grid alone (R84). -/
theorem Block.writeBlock_eq (b : Block) (x y : Nat) (v : GridCell) :
    b.writeBlock x y v = { b with grid := (b.writeBlock x y v).grid } := b.writeCells_eq _ v

theorem Block.readCell_writeCells (b : Block) (l : List (Nat × Nat)) (v : GridCell)
    (h : ∀ rc ∈ l, b.inGrid rc.1 rc.2 = true) (r c : Nat) :
    (b.writeCells l v).readCell r c = if (r, c) ∈ l then some v else b.readCell r c := by
  induction l generalizing b with
  | nil => simp
  | cons rc l ih =>
    have hrc := h rc List.mem_cons_self
    rw [Block.writeCells_cons, ih (b.writeCell rc.1 rc.2 v) (fun e he => h e (List.mem_cons_of_mem _ he)),
      Block.readCell_writeCell b v hrc]
    obtain ⟨r₀, c₀⟩ := rc
    by_cases hl : (r, c) ∈ l
    · simp [hl]
    · by_cases he : r₀ = r ∧ c₀ = c
      · obtain ⟨rfl, rfl⟩ := he
        simp
      · have : ¬((r, c) = (r₀, c₀)) := fun hh => he ⟨(Prod.mk.inj hh).1.symm, (Prod.mk.inj hh).2.symm⟩
        simp [hl, he, this]

theorem Block.mem_blockCells (b : Block) (x y r c : Nat) :
    (r, c) ∈ b.blockCells x y ↔
      (b.bh + y * b.scale.toNat ≤ r ∧ r < b.bh + y * b.scale.toNat + b.scale.toNat) ∧
      (b.bw + x * b.scale.toNat ≤ c ∧ c < b.bw + x * b.scale.toNat + b.scale.toNat) := by
  simp only [Block.blockCells, List.mem_flatMap, List.mem_map, List.mem_range, Prod.mk.injEq]
  constructor
  · rintro ⟨j, hj, i, hi, rfl, rfl⟩
    omega
  · rintro ⟨⟨h1, h2⟩, h3, h4⟩
    exact ⟨r - (b.bh + y * b.scale.toNat), by omega, c - (b.bw + x * b.scale.toNat), by omega, by omega, by omega⟩

/-- The block of a logical pixel lies inside the grid and outside the border (R84). -/
theorem Block.blockCells_inside (b : Block) {x y r c : Nat} (hs : onScreen x y = true)
    (h : (r, c) ∈ b.blockCells x y) :
    (b.bh ≤ r ∧ r < b.bh + 192 * b.scale.toNat) ∧ b.bw ≤ c ∧ c < b.bw + 256 * b.scale.toNat := by
  obtain ⟨⟨h1, h2⟩, h3, h4⟩ := (b.mem_blockCells x y r c).mp h
  have hs := (onScreen_iff x y).mp hs
  have hy : y * b.scale.toNat + b.scale.toNat ≤ 192 * b.scale.toNat := by
    have := Nat.mul_le_mul_right b.scale.toNat (show y + 1 ≤ 192 by omega)
    rwa [Nat.add_mul, Nat.one_mul] at this
  have hx : x * b.scale.toNat + b.scale.toNat ≤ 256 * b.scale.toNat := by
    have := Nat.mul_le_mul_right b.scale.toNat (show x + 1 ≤ 256 by omega)
    rwa [Nat.add_mul, Nat.one_mul] at this
  omega

theorem Block.blockCells_inGrid (b : Block) {x y : Nat} (hs : onScreen x y = true) :
    ∀ rc ∈ b.blockCells x y, b.inGrid rc.1 rc.2 = true := by
  rintro ⟨r, c⟩ h
  have := b.blockCells_inside hs h
  rw [Block.inGrid_iff]
  unfold Block.height Block.width gridH gridW
  unfold Block.bh Block.bw at this
  simp only
  omega

/-- What a cell reads as after `write_block` (R84). -/
theorem Block.readCell_writeBlock (b : Block) {x y : Nat} (v : GridCell) (hs : onScreen x y = true) (r c : Nat) :
    (b.writeBlock x y v).readCell r c = if (r, c) ∈ b.blockCells x y then some v else b.readCell r c :=
  b.readCell_writeCells _ v (b.blockCells_inGrid hs) r c

/-! ### Construction and decoding -/

/-- Every live cell of a new image is the border cell (R83). -/
theorem Block.readCell_construct (b : Block) (s : Nat) (ben : Bool) (bc : BitVec 4) (r c : Nat) :
    (b.construct s ben bc).readCell r c =
      if r < gridH (s % 8) ben ∧ c < gridW (s % 8) ben then some (bcell bc) else none := by
  have hin : (b.construct s ben bc).inGrid r c = (decide (r < gridH (s % 8) ben) && decide (c < gridW (s % 8) ben)) := by
    simp [Block.inGrid, Block.height, Block.width]
  unfold Block.readCell
  rw [hin]
  simp [Block.gridFill]

theorem Block.mem_screenCells (b : Block) (raw : RawScreen) (k : Nat) (v : GridCell) :
    (k, v) ∈ b.screenCells raw ↔
      ∃ j < 192 * b.scale.toNat, ∃ i < 256 * b.scale.toNat,
        raw.cell (i / b.scale.toNat) (j / b.scale.toNat) = v ∧ b.gridFill ≠ some v ∧
          k = cellIndex (b.bh + j) (b.bw + i) := by
  simp only [Block.screenCells, logicalW, logicalH, List.mem_flatMap, List.mem_filterMap, List.mem_range]
  constructor
  · rintro ⟨j, hj, i, hi, h⟩
    split at h
    · cases h
    · rename_i hf
      cases h
      exact ⟨j, hj, i, hi, rfl, hf, rfl⟩
  · rintro ⟨j, hj, i, hi, rfl, hf, rfl⟩
    exact ⟨j, hj, i, hi, by rw [if_neg hf]⟩

theorem Block.screenCol_lt_stride (b : Block) {i : Nat} (h : i < 256 * b.scale.toNat) : b.bw + i < gridStride := by
  have := b.width_lt_stride
  unfold Block.width gridW at this
  unfold Block.bw
  omega

theorem Block.screenCells_sorted (b : Block) (raw : RawScreen) :
    (b.screenCells raw).Pairwise (fun e f => e.1 < f.1) := by
  unfold Block.screenCells
  simp only [logicalW, logicalH]
  rw [List.pairwise_flatMap]
  refine ⟨fun j _ => ?_, ?_⟩
  · rw [List.pairwise_filterMap]
    refine (List.pairwise_lt_range).imp ?_
    intro i i' hlt e he f hf
    split at he
    · cases he
    · split at hf
      · cases hf
      · cases he
        cases hf
        simp only [cellIndex]
        omega
  · refine (List.Pairwise.imp_of_mem ?_ List.pairwise_lt_range)
    intro j j' _ _ hlt e he f hf
    obtain ⟨i, hi, he⟩ := List.mem_filterMap.mp he
    obtain ⟨i', hi', hf⟩ := List.mem_filterMap.mp hf
    have h1 := b.screenCol_lt_stride (List.mem_range.mp hi)
    have h2 := b.screenCol_lt_stride (List.mem_range.mp hi')
    split at he
    · cases he
    · split at hf
      · cases hf
      · cases he
        cases hf
        simp only [cellIndex]
        unfold gridStride at *
        omega

/-- What a cell of the live region reads as from the list DECODE builds: the screen's cell inside, the fill
outside (R77). -/
theorem Block.lookup_screenCells (b : Block) (raw : RawScreen) {r c : Nat} (hc : c < gridStride) :
    (Mem.lookup (b.screenCells raw) (cellIndex r c)).or b.gridFill =
      if (b.bh ≤ r ∧ r < b.bh + 192 * b.scale.toNat) ∧ b.bw ≤ c ∧ c < b.bw + 256 * b.scale.toNat then
        some (raw.cell ((c - b.bw) / b.scale.toNat) ((r - b.bh) / b.scale.toNat))
      else b.gridFill := by
  split
  · rename_i h
    by_cases hf : b.gridFill = some (raw.cell ((c - b.bw) / b.scale.toNat) ((r - b.bh) / b.scale.toNat))
    · cases hl : Mem.lookup (b.screenCells raw) (cellIndex r c) with
      | none => simpa using hf
      | some w =>
        obtain ⟨j, hj, i, hi, hv, hne, hk⟩ := (b.mem_screenCells raw _ _).mp (Mem.lookup_mem hl)
        obtain ⟨hr, hcc⟩ := (cellIndex_inj hc (b.screenCol_lt_stride hi)).mp hk
        have hi' : c - b.bw = i := by omega
        have hj' : r - b.bh = j := by omega
        rw [hi', hj'] at hf
        exact absurd (hv ▸ hf) hne
    · have hm : (cellIndex r c, raw.cell ((c - b.bw) / b.scale.toNat) ((r - b.bh) / b.scale.toNat))
          ∈ b.screenCells raw :=
        (b.mem_screenCells raw _ _).mpr ⟨r - b.bh, by omega, c - b.bw, by omega, rfl, hf,
          by congr 1 <;> omega⟩
      rw [Mem.lookup_of_mem (b.screenCells_sorted raw) hm]
      rfl
  · rename_i h
    cases hl : Mem.lookup (b.screenCells raw) (cellIndex r c) with
    | none => rfl
    | some w =>
      obtain ⟨j, hj, i, hi, hv, hne, hk⟩ := (b.mem_screenCells raw _ _).mp (Mem.lookup_mem hl)
      obtain ⟨hr, hcc⟩ := (cellIndex_inj hc (b.screenCol_lt_stride hi)).mp hk
      omega

/-- What a cell reads as after a successful DECODE (R77). -/
theorem Block.readCell_decodeScreen (b : Block) (s : Nat) (ben : Bool) (bc : BitVec 4) (raw : RawScreen)
    (r c : Nat) :
    (b.decodeScreen s ben bc raw).readCell r c =
      if r < gridH (s % 8) ben ∧ c < gridW (s % 8) ben then
        if (borderH (s % 8) ben ≤ r ∧ r < borderH (s % 8) ben + 192 * (s % 8)) ∧
            borderW (s % 8) ben ≤ c ∧ c < borderW (s % 8) ben + 256 * (s % 8) then
          some (raw.cell ((c - borderW (s % 8) ben) / (s % 8)) ((r - borderH (s % 8) ben) / (s % 8)))
        else some (bcell bc)
      else none := by
  have hin : (b.decodeScreen s ben bc raw).inGrid r c = (b.construct s ben bc).inGrid r c := rfl
  have hf : (b.decodeScreen s ben bc raw).gridFill = (b.construct s ben bc).gridFill := rfl
  unfold Block.readCell
  rw [hin, hf, Block.decodeScreen_grid]
  by_cases h : (b.construct s ben bc).inGrid r c = true
  · have h' := (Block.inGrid_iff _ _ _).mp h
    simp only [Block.height, Block.width, Block.construct_scale, Block.construct_borderEn, BitVec.toNat_ofNat] at h'
    rw [if_pos h, Block.lookup_screenCells _ _ (Block.col_lt_stride h)]
    conv_rhs => rw [if_pos (show r < gridH (s % 8) ben ∧ c < gridW (s % 8) ben from h')]
    simp [Block.bh, Block.bw, Block.gridFill]
  · rw [if_neg h]
    rw [Block.inGrid_iff] at h
    simp only [Block.height, Block.width, Block.construct_scale, Block.construct_borderEn, BitVec.toNat_ofNat] at h
    rw [if_neg (by simpa using h)]

/-! ### The canonical form -/

/-- An index of the grid that lies in its live region. -/
theorem Block.inGrid_cellIndex {b : Block} {r c : Nat} (h : b.inGrid r c = true) :
    b.inGrid (cellIndex r c / gridStride) (cellIndex r c % gridStride) = true := by
  rw [cellIndex_div r (Block.col_lt_stride h), cellIndex_mod r (Block.col_lt_stride h)]
  exact h

end Sys2Proof.Machine
end

