-- ==== Sys2Proof/Laws/Raw.lean ====
section
/-!
SUPPORT. The laws of the raw buffers: what a byte reads as after it is stored, what PUSH does to the buffers, and
when DECODE finds all of them filled.
-/

namespace Sys2Proof.Machine

theorem Block.readPix_storePix (b : Block) (i : Nat) (v : Byte) (a : Nat) :
    (b.storePix i v).readPix a = if a < 6144 ∧ i = a then some v else b.readPix a := by
  unfold Block.readPix
  simp only [Block.storePix_pix, Mem.lookup_write_none]
  by_cases ha : a < 6144 <;> by_cases hi : i = a <;> simp [ha, hi]

theorem Block.readAttr_storeAttr (b : Block) (i : Nat) (v : Byte) (a : Nat) :
    (b.storeAttr i v).readAttr a = if a < 768 ∧ i = a then some v else b.readAttr a := by
  unfold Block.readAttr
  simp only [Block.storeAttr_attr, Mem.lookup_write_none]
  by_cases ha : a < 768 <;> by_cases hi : i = a <;> simp [ha, hi]

@[simp] theorem Block.readAttr_storePix (b : Block) (i : Nat) (v : Byte) (a : Nat) :
    (b.storePix i v).readAttr a = b.readAttr a := rfl

@[simp] theorem Block.readPix_storeAttr (b : Block) (i : Nat) (v : Byte) (a : Nat) :
    (b.storeAttr i v).readPix a = b.readPix a := rfl

@[simp] theorem Block.readPix_countByte (b : Block) (a : Nat) : b.countByte.readPix a = b.readPix a := rfl

@[simp] theorem Block.readAttr_countByte (b : Block) (a : Nat) : b.countByte.readAttr a = b.readAttr a := rfl

/-- Below 6912 the byte count goes up by one and does not wrap. -/
theorem Block.countByte_toNat {b : Block} (h : b.rxCnt.toNat < 6912) :
    (b.rxCnt + 1).toNat = b.rxCnt.toNat + 1 := by
  have h1 : (1 : BitVec 13).toNat = 1 := by decide
  rw [BitVec.toNat_add, h1]
  omega

/-- The three cases of PUSH (R70). -/
theorem Block.receive_cases (b : Block) (v : Byte) :
    (b.rxCnt.toNat < 6144 ∧ b.receive v = (b.storePix b.rxCnt.toNat v).countByte) ∨
    (6144 ≤ b.rxCnt.toNat ∧ b.rxCnt.toNat < 6912 ∧
      b.receive v = (b.storeAttr (b.rxCnt.toNat - 6144) v).countByte) ∨
    (6912 ≤ b.rxCnt.toNat ∧ b.receive v = b.noteOverflow) := by
  unfold Block.receive
  simp only [pixBytes, scrBytes]
  split
  · exact .inl ⟨‹_›, rfl⟩
  · split
    · exact .inr (.inl ⟨by omega, ‹_›, rfl⟩)
    · exact .inr (.inr ⟨by omega, rfl⟩)

/-! ### Reading a whole buffer -/

/-- All reads of a list of indices succeed exactly when the results are their values, in order. -/
theorem mapM_eq_some_iff {α β : Type} (f : α → Option β) (l : List α) (out : List β) :
    l.mapM f = some out ↔ l.map f = out.map some := by
  induction l generalizing out with
  | nil => cases out <;> simp
  | cons a l ih =>
    rw [List.mapM_cons]
    cases hf : f a with
    | none => cases out <;> simp [hf]
    | some v =>
      cases out with
      | nil => simp [hf, Option.bind_eq_some_iff]
      | cons w out => simp [hf, Option.bind_eq_some_iff, ih, and_comm]

/-- What DECODE reads, when it reads everything (R71). -/
theorem Block.rawScreen_eq_some_iff (b : Block) (raw : RawScreen) :
    b.rawScreen = some raw ↔
      (raw.pix.size = 6144 ∧ ∀ i < 6144, b.readPix i = some (raw.pix.getD i 0)) ∧
      (raw.attr.size = 768 ∧ ∀ j < 768, b.readAttr j = some (raw.attr.getD j 0)) := by
  have key : ∀ (n : Nat) (f : Nat → Option Byte) (a : Array Byte),
      (List.range n).mapM f = some a.toList ↔ a.size = n ∧ ∀ i < n, f i = some (a.getD i 0) := by
    intro n f a
    rw [mapM_eq_some_iff]
    constructor
    · intro h
      have hs : a.size = n := by simpa using (congrArg List.length h).symm
      refine ⟨hs, fun i hi => ?_⟩
      have := congrArg (fun l => l[i]?) h
      simpa [hi, hs, Array.getD] using this
    · rintro ⟨hs, h⟩
      apply List.ext_getElem
      · simp [hs]
      · intro i h1 h2
        have hi : i < n := by simpa using h1
        simpa [hs, hi, Array.getD] using h i hi
  obtain ⟨p, a⟩ := raw
  rw [← key, ← key]
  unfold Block.rawScreen
  simp only [pixBytes, attrBytes]
  cases hp : (List.range 6144).mapM b.readPix with
  | none => simp
  | some lp =>
    cases ha : (List.range 768).mapM b.readAttr with
    | none => simp
    | some la =>
      constructor
      · intro h
        simp only [Option.some.injEq, RawScreen.mk.injEq] at h
        obtain ⟨rfl, rfl⟩ := h
        exact ⟨rfl, rfl⟩
      · rintro ⟨h1, h2⟩
        simp only [Option.some.injEq] at h1 h2
        subst h1 h2
        rfl

/-- DECODE finds every byte exactly when every byte has a value. -/
theorem Block.rawScreen_isSome {b : Block} (hp : ∀ i < 6144, (b.readPix i).isSome = true)
    (ha : ∀ j < 768, (b.readAttr j).isSome = true) : ∃ raw, b.rawScreen = some raw := by
  refine ⟨⟨((List.range 6144).map fun i => (b.readPix i).getD 0).toArray,
    ((List.range 768).map fun j => (b.readAttr j).getD 0).toArray⟩, ?_⟩
  rw [Block.rawScreen_eq_some_iff]
  refine ⟨⟨by simp, fun i hi => ?_⟩, by simp, fun j hj => ?_⟩
  · obtain ⟨v, hv⟩ := Option.isSome_iff_exists.mp (hp i hi)
    simp [Array.getD, hi, hv]
  · obtain ⟨v, hv⟩ := Option.isSome_iff_exists.mp (ha j hj)
    simp [Array.getD, hj, hv]

/-- What DECODE reads depends on the two buffers alone (R71 "State read"). -/
theorem Block.rawScreen_congr {b c : Block} (hp : c.pix = b.pix) (ha : c.attr = b.attr) :
    c.rawScreen = b.rawScreen := by
  have h1 : c.readPix = b.readPix := funext fun i => by unfold Block.readPix; rw [hp]
  have h2 : c.readAttr = b.readAttr := funext fun j => by unfold Block.readAttr; rw [ha]
  unfold Block.rawScreen
  rw [h1, h2]

end Sys2Proof.Machine
end

