-- ==== Sys2Proof/Laws/Canonical.lean ====
section
/-!
SUPPORT. Every memory operation keeps the three memories in canonical form, and the reset state has it.
-/

namespace Sys2Proof.Machine

theorem State.reset_memOk : State.reset.blk.MemOk :=
  ⟨Mem.nil_wf _ _, Mem.nil_wf _ _, Mem.nil_wf _ _, fun _ => rfl⟩

theorem Block.storePix_memOk {b : Block} (h : b.MemOk) {i : Nat} (hi : i < pixBytes) (v : Byte) :
    (b.storePix i v).MemOk :=
  ⟨Mem.write_wf h.1 (decide_eq_true hi), h.2⟩

theorem Block.storeAttr_memOk {b : Block} (h : b.MemOk) {j : Nat} (hj : j < attrBytes) (v : Byte) :
    (b.storeAttr j v).MemOk :=
  ⟨h.1, Mem.write_wf h.2.1 (decide_eq_true hj), h.2.2⟩

theorem Block.writeCell_memOk {b : Block} (h : b.MemOk) (hi : b.imgValid = true) {r c : Nat}
    (hrc : b.inGrid r c = true) (v : GridCell) : (b.writeCell r c v).MemOk := by
  refine ⟨h.1, h.2.1, Mem.write_wf h.2.2.1 (Block.inGrid_cellIndex hrc), fun hn => ?_⟩
  rw [Block.writeCell_imgValid, hi] at hn
  cases hn

theorem Block.writeCells_memOk {b : Block} (h : b.MemOk) (hi : b.imgValid = true) (l : List (Nat × Nat))
    (hl : ∀ rc ∈ l, b.inGrid rc.1 rc.2 = true) (v : GridCell) : (b.writeCells l v).MemOk := by
  induction l generalizing b with
  | nil => exact h
  | cons rc l ih =>
    rw [Block.writeCells_cons]
    exact ih (Block.writeCell_memOk h hi (hl rc List.mem_cons_self) v) hi
      fun e he => hl e (List.mem_cons_of_mem _ he)

theorem Block.writeBlock_memOk {b : Block} (h : b.MemOk) (hi : b.imgValid = true) {x y : Nat}
    (hs : onScreen x y = true) (v : GridCell) : (b.writeBlock x y v).MemOk :=
  Block.writeCells_memOk h hi _ (b.blockCells_inGrid hs) v

theorem Block.construct_memOk {b : Block} (h : b.MemOk) (s : Nat) (ben : Bool) (bc : BitVec 4) :
    (b.construct s ben bc).MemOk :=
  ⟨h.1, h.2.1, Mem.nil_wf _ _, fun _ => rfl⟩

theorem Block.decodeScreen_memOk {b : Block} (h : b.MemOk) (s : Nat) (ben : Bool) (bc : BitVec 4)
    (raw : RawScreen) : (b.decodeScreen s ben bc raw).MemOk := by
  refine ⟨h.1, h.2.1, ⟨Block.screenCells_sorted _ _, ?_⟩, fun hn => by cases hn⟩
  rintro ⟨k, v⟩ he
  obtain ⟨j, hj, i, hi, -, hne, rfl⟩ := (Block.mem_screenCells _ _ _ _).mp he
  refine ⟨Block.inGrid_cellIndex ((Block.inGrid_iff _ _ _).mpr ?_), hne⟩
  simp only [Block.height, Block.width, gridH, gridW, Block.bh, Block.bw, Block.decodeScreen_scale,
    Block.decodeScreen_borderEn, Block.construct_scale, Block.construct_borderEn] at *
  omega

end Sys2Proof.Machine
end

