-- ==== Sys2Proof/Laws/Encoding.lean ====
section
/-!
SUPPORT. The laws of the encoding: what a format's word is as a number, what a row's mask test says, and when
the decoder answers an instruction.
-/

namespace Sys2Proof

theorem toNat_append_eq {m n : Nat} (x : BitVec m) (y : BitVec n) :
    (x ++ y).toNat = x.toNat * 2 ^ n + y.toNat := by
  rw [BitVec.toNat_append, ← Nat.shiftLeft_add_eq_or_of_lt y.isLt, Nat.shiftLeft_eq]

theorem toNat_ofBool_eq (b : Bool) : (BitVec.ofBool b).toNat = if b then 1 else 0 := by
  cases b <;> rfl

/-! ### Words as numbers -/

theorem encode_resolve_toNat (attr : Byte) (ink fl : Bool) :
    (encode (.resolve attr ink fl)).toNat =
      0x10000000 + (if fl then 1 else 0) * 512 + (if ink then 1 else 0) * 256 + attr.toNat := by
  simp only [encode, toNat_append_eq, toNat_ofBool_eq, BitVec.toNat_ofNat]
  omega

theorem encode_pal_toNat (idx : Nat) : (encode (.pal idx)).toNat = 0x20000000 + idx % 16 := by
  simp only [encode, toNat_append_eq, BitVec.toNat_ofNat]
  omega

theorem encode_addr_toNat (x y : Nat) :
    (encode (.addr x y)).toNat = 0x30000000 + y % 256 * 256 + x % 256 := by
  simp only [encode, toNat_append_eq, BitVec.toNat_ofNat]
  omega

theorem encode_push_toNat (b : Byte) : (encode (.push b)).toNat = 0x40000000 + b.toNat := by
  simp only [encode, toNat_append_eq, BitVec.toNat_ofNat]
  omega

theorem encode_decode_toNat (sc : Int) (ben : Bool) (bcol : Nat) :
    (encode (.decode sc ben bcol)).toNat =
      0x50000000 + (if ben then 1 else 0) * 65536 + bcol % 256 * 256 + (BitVec.ofInt 8 sc).toNat := by
  simp only [encode, toNat_append_eq, toNat_ofBool_eq, BitVec.toNat_ofNat]
  omega

theorem encode_new_toNat (sc : Int) (ben : Bool) (bcol : Nat) :
    (encode (.new sc ben bcol)).toNat =
      0x60000000 + (if ben then 1 else 0) * 65536 + bcol % 256 * 256 + (BitVec.ofInt 8 sc).toNat := by
  simp only [encode, toNat_append_eq, toNat_ofBool_eq, BitVec.toNat_ofNat]
  omega

theorem encode_set_toNat (x y : Nat) (attr : Byte) (ink : Bool) :
    (encode (.set x y attr ink)).toNat =
      0x70000000 + (if ink then 1 else 0) * 16777216 + attr.toNat * 65536 + y % 256 * 256 + x % 256 := by
  simp only [encode, toNat_append_eq, toNat_ofBool_eq, BitVec.toNat_ofNat]
  omega

theorem encode_get_toNat (x y : Int) :
    (encode (.get x y)).toNat =
      0x80000000 + (BitVec.ofInt 14 y).toNat * 16384 + (BitVec.ofInt 14 x).toNat := by
  simp only [encode, toNat_append_eq, BitVec.toNat_ofNat]
  omega

theorem encode_setflash_toNat (en : Bool) :
    (encode (.setflash en)).toNat = 0xA0000000 + (if en then 1 else 0) := by
  simp only [encode, toNat_append_eq, toNat_ofBool_eq, BitVec.toNat_ofNat]
  omega

/-! ### Mask tests -/

/-- Masking with the bits from `lo` up clears the bits below. -/
theorem and_highMask (w : Word) (lo : Nat) :
    w &&& (BitVec.allOnes 32 <<< lo) = (w >>> lo) <<< lo := by
  ext i hi
  simp only [BitVec.getElem_and, BitVec.getElem_shiftLeft, BitVec.getElem_allOnes]
  by_cases h : i < lo
  · simp [h]
  · have : lo + (i - lo) = i := by omega
    simp [h, this, BitVec.getLsbD_eq_getElem hi]

/-- A row's mask test compares the bits from `lo` up with a number, `lo` being the lowest fixed bit. -/
theorem mask_test_iff (w : Word) (lo v : Nat) (hv : v * 2 ^ lo < 2 ^ 32) :
    w &&& (BitVec.allOnes 32 <<< lo) = BitVec.ofNat 32 (v * 2 ^ lo) ↔ w.toNat / 2 ^ lo = v := by
  have hw := w.isLt
  have hle : w.toNat / 2 ^ lo * 2 ^ lo ≤ w.toNat := Nat.div_mul_le_self _ _
  rw [and_highMask, ← BitVec.toNat_inj, BitVec.toNat_shiftLeft, BitVec.toNat_ushiftRight, BitVec.toNat_ofNat,
    Nat.shiftRight_eq_div_pow, Nat.shiftLeft_eq, Nat.mod_eq_of_lt (Nat.lt_of_le_of_lt hle hw), Nat.mod_eq_of_lt hv]
  exact ⟨fun h => Nat.eq_of_mul_eq_mul_right (Nat.two_pow_pos lo) h, fun h => by rw [h]⟩

/-- The lowest bit a row's mask fixes: every operand bit lies below it (R47, R49). -/
def Op.lowestFixed : Op → Nat
  | .resolve => 10
  | .pal => 4
  | .addr => 16
  | .push => 8
  | .decode => 17
  | .new => 17
  | .set => 25
  | .get => 28
  | .bounds => 0
  | .setflash => 1
  | .hasflash => 0
  | .stat => 0
  | .clear => 0

/-- The number a row's fixed bits hold (`fixed` of `spec/opcode_table.json`). -/
def Op.fixedValue : Op → Nat
  | .resolve => 262144
  | .pal => 33554432
  | .addr => 12288
  | .push => 4194304
  | .decode => 10240
  | .new => 12288
  | .set => 56
  | .get => 8
  | .bounds => 2415919104
  | .setflash => 1342177280
  | .hasflash => 2952790016
  | .stat => 3221225472
  | .clear => 3489660928

/-- The mask test of a row, as a comparison of numbers. -/
theorem Op.row_test_iff (op : Op) (w : Word) :
    w &&& op.row.mask = op.row.pattern ↔ w.toNat / 2 ^ op.lowestFixed = op.fixedValue := by
  have hm : op.row.mask = BitVec.allOnes 32 <<< op.lowestFixed := by cases op <;> decide
  have hp : op.row.pattern = BitVec.ofNat 32 (op.fixedValue * 2 ^ op.lowestFixed) := by
    cases op <;> decide
  have hlt : op.fixedValue * 2 ^ op.lowestFixed < 2 ^ 32 := by cases op <;> decide
  rw [hm, hp]
  exact mask_test_iff w _ _ hlt

theorem opcodeOf_toNat (w : Word) : (opcodeOf w).toNat = w.toNat / 2 ^ 28 := by
  have := w.isLt
  rw [opcodeOf, BitVec.extractLsb'_toNat, Nat.shiftRight_eq_div_pow]
  omega

/-- A word that passes a row's test has the row's opcode, so no two rows overlap (R50). -/
theorem Op.code_of_row_test {op : Op} {w : Word} (h : w &&& op.row.mask = op.row.pattern) :
    op.row.code = opcodeOf w := by
  rw [Op.row_test_iff] at h
  rw [← BitVec.toNat_inj, opcodeOf_toNat]
  cases op <;> simp only [Op.lowestFixed, Op.fixedValue] at h <;> simp [Op.row] <;> omega

theorem Op.code_inj {op op' : Op} (h : op.row.code = op'.row.code) : op = op' := by
  cases op <;> cases op' <;> first | rfl | exact absurd h (by decide)

theorem Op.row_op (op : Op) : op.row.op = op := by
  cases op <;> rfl

theorem Op.row_mem (op : Op) : op.row ∈ opcodeTable := by
  cases op <;> decide

theorem mem_opcodeTable {r : OpcodeRow} (h : r ∈ opcodeTable) : ∃ op : Op, r = op.row := by
  obtain ⟨op, -, rfl⟩ := List.mem_map.mp h
  exact ⟨op, rfl⟩

/-- The row the decoder looks up is the one with the word's opcode. -/
theorem lookup_row {w : Word} {op : Op} (h : op.row.code = opcodeOf w) :
    opcodeTable.find? (fun r => decide (r.code = opcodeOf w)) = some op.row := by
  cases hf : opcodeTable.find? (fun r => decide (r.code = opcodeOf w)) with
  | none =>
    have := List.find?_eq_none.mp hf op.row op.row_mem
    simp [h] at this
  | some r =>
    obtain ⟨op', rfl⟩ := mem_opcodeTable (List.mem_of_find?_eq_some hf)
    have hr : op'.row.code = opcodeOf w := by simpa using List.find?_some hf
    rw [Op.code_inj (hr.trans h.symm)]

/-- When the decoder answers an instruction (R50). -/
theorem decodeWord_ok_iff (w : Word) (i : Instr) :
    decodeWord w = .ok i ↔ ∃ op : Op, w &&& op.row.mask = op.row.pattern ∧ i = readOperands op w := by
  constructor
  · intro h
    unfold decodeWord at h
    split at h
    · cases h
    · rename_i r hr
      obtain ⟨op, rfl⟩ := mem_opcodeTable (List.mem_of_find?_eq_some hr)
      split at h
      · rename_i hm
        cases h
        exact ⟨op, hm, by rw [Op.row_op]⟩
      · cases h
  · rintro ⟨op, hm, rfl⟩
    unfold decodeWord
    rw [lookup_row (Op.code_of_row_test hm)]
    simp only [hm, if_true, Op.row_op]

/-- The operation of what is read is the row's. -/
theorem readOperands_op (op : Op) (w : Word) : (readOperands op w).op = op := by
  cases op <;> rfl

end Sys2Proof
end

