-- ==== Sys2Proof/Laws/Exec.lean ====
section
/-!
SUPPORT. What a step can do, said once: a next state of an instruction is either a completion with the
instruction's effect on the block, or a raised error; a step runs the decoded instruction, raises
`IllegalCommand`, or idles. Later proofs start from these.
-/

namespace Sys2Proof.Machine

/-- The effect a completed instruction has on the block. -/
def Completes (i : Instr) (b b' : Block) : Prop :=
  match i with
  | .resolve _ _ _ => b' = b
  | .pal _ => b' = b
  | .addr _ _ => b' = b
  | .push v => b' = b.receive v
  | .decode sc ben bcol =>
    (1 ≤ sc ∧ sc ≤ 4) ∧ bcol ≤ 15 ∧ b.rawExact = true ∧
      ∃ raw, b.rawScreen = some raw ∧ b' = b.decodeScreen sc.toNat ben (BitVec.ofNat 4 bcol) raw
  | .new sc ben bcol => bcol ≤ 15 ∧ b' = b.construct (clampScale sc) ben (BitVec.ofNat 4 bcol)
  | .set x y attr ink => b.imgValid = true ∧ onScreen x y = true ∧ b' = b.writeBlock x y (mkCell ink attr)
  | .get _ _ => b.imgValid = true ∧ b' = b
  | .bounds => b.imgValid = true ∧ b' = b
  | .setflash en => b.imgValid = true ∧ b' = b.switchFlash en
  | .hasflash => b.imgValid = true ∧ b' = b
  | .stat => b' = b
  | .clear => b' = Block.reset

/-- The error an instruction raises in a block, and on which ground (R92 to R96). -/
def Fails (i : Instr) (b : Block) (e : Error) : Prop :=
  match i with
  | .addr x y => e = .badCoordinate ∧ onScreen x y = false
  | .decode sc _ bcol =>
    (e = .invalidOptions ∧ ¬((1 ≤ sc ∧ sc ≤ 4) ∧ bcol ≤ 15)) ∨
      (e = .truncatedInput ∧ ((1 ≤ sc ∧ sc ≤ 4) ∧ bcol ≤ 15) ∧ b.rawExact = false)
  | .new _ _ bcol => e = .invalidOptions ∧ 15 < bcol
  | .set x y _ _ =>
    (e = .noImage ∧ b.imgValid = false) ∨ (e = .badCoordinate ∧ b.imgValid = true ∧ onScreen x y = false)
  | .get _ _ => e = .noImage ∧ b.imgValid = false
  | .bounds => e = .noImage ∧ b.imgValid = false
  | .setflash _ => e = .noImage ∧ b.imgValid = false
  | .hasflash => e = .noImage ∧ b.imgValid = false
  | _ => False

/-- The two ways through the image test (R90). -/
theorem State.needImage_cases {s t : State} {body : Host.Outcome State Fault Refusal}
    (h : s.needImage body = .next t) :
    (s.blk.imgValid = true ∧ body = .next t) ∨ (s.blk.imgValid = false ∧ t = s.raise .noImage 0) := by
  unfold State.needImage at h
  split at h
  · exact .inl ⟨‹_›, h⟩
  · rename_i hi
    cases h
    exact .inr ⟨Bool.not_eq_true _ ▸ hi, rfl⟩

theorem State.needImage_pos {s : State} (h : s.blk.imgValid = true) (body : Host.Outcome State Fault Refusal) :
    s.needImage body = body := by
  simp [State.needImage, h]

theorem State.needImage_neg {s : State} (h : s.blk.imgValid = false) (body : Host.Outcome State Fault Refusal) :
    s.needImage body = .next (s.raise .noImage 0) := by
  simp [State.needImage, h]

theorem badScale_eq_false (sc : Int) : badScale sc = false ↔ 1 ≤ sc ∧ sc ≤ 4 := by
  simp [badScale]

theorem badBorderCol_eq_false (bcol : Nat) : badBorderCol bcol = false ↔ bcol ≤ 15 := by
  simp [badBorderCol]

theorem State.withBlk_self (s : State) : s.withBlk s.blk = s := rfl

/-- DECODE in its four cases (R71, R72, R73, U9). -/
theorem execDecode_cases (sc : Int) (ben : Bool) (bcol : Nat) (s : State) :
    (¬((1 ≤ sc ∧ sc ≤ 4) ∧ bcol ≤ 15) ∧
      execDecode sc ben bcol s =
        .next (s.raise .invalidOptions (optionFaults (badScale sc) (badBorderCol bcol)))) ∨
    (((1 ≤ sc ∧ sc ≤ 4) ∧ bcol ≤ 15) ∧ s.blk.rawExact = false ∧
      execDecode sc ben bcol s = .next (s.raise .truncatedInput (countInfo s.blk))) ∨
    (((1 ≤ sc ∧ sc ≤ 4) ∧ bcol ≤ 15) ∧ s.blk.rawExact = true ∧ s.blk.rawScreen = none ∧
      execDecode sc ben bcol s = .fault .rawByteUnspecified) ∨
    (((1 ≤ sc ∧ sc ≤ 4) ∧ bcol ≤ 15) ∧ s.blk.rawExact = true ∧ ∃ raw, s.blk.rawScreen = some raw ∧
      execDecode sc ben bcol s =
        .next ((s.withBlk (s.blk.decodeScreen sc.toNat ben (BitVec.ofNat 4 bcol) raw)).respond 0)) := by
  unfold execDecode
  by_cases hbad : (badScale sc || badBorderCol bcol) = true
  · refine .inl ⟨fun hok => ?_, by rw [if_pos hbad]⟩
    rw [(badScale_eq_false sc).mpr hok.1, (badBorderCol_eq_false bcol).mpr hok.2] at hbad
    simp at hbad
  · rw [if_neg hbad]
    simp only [Bool.or_eq_true, not_or, Bool.not_eq_true] at hbad
    have hok : (1 ≤ sc ∧ sc ≤ 4) ∧ bcol ≤ 15 :=
      ⟨(badScale_eq_false sc).mp hbad.1, (badBorderCol_eq_false bcol).mp hbad.2⟩
    cases hx : s.blk.rawExact with
    | false => exact .inr (.inl ⟨hok, rfl, by simp⟩)
    | true =>
      cases hr : s.blk.rawScreen with
      | none => exact .inr (.inr (.inl ⟨hok, rfl, rfl, by simp⟩))
      | some raw => exact .inr (.inr (.inr ⟨hok, rfl, raw, rfl, by simp⟩))

/-- A DECODE with legal options and a complete raw screen completes (R71, R97). -/
theorem exec_decode_next {s : State} {sc : Int} {ben : Bool} {bcol : Nat} {raw : RawScreen}
    (hok : (1 ≤ sc ∧ sc ≤ 4) ∧ bcol ≤ 15) (hx : s.blk.rawExact = true) (hr : s.blk.rawScreen = some raw) :
    exec (.decode sc ben bcol) s =
      .next ((s.withBlk (s.blk.decodeScreen sc.toNat ben (BitVec.ofNat 4 bcol) raw)).respond 0) := by
  rcases execDecode_cases sc ben bcol s with ⟨h, -⟩ | ⟨-, h, -⟩ | ⟨-, -, h, -⟩ | ⟨-, -, raw', h, he⟩
  · exact absurd hok h
  · rw [hx] at h
    cases h
  · rw [hr] at h
    cases h
  · rw [hr] at h
    cases h
    exact he

/-- Everything an instruction can do when it answers a next state. -/
theorem exec_cases {i : Instr} {s t : State} (h : exec i s = .next t) :
    (∃ b' d, Completes i s.blk b' ∧ t = (s.withBlk b').respond d) ∨
    (∃ e d, Fails i s.blk e ∧ t = s.raise e d) := by
  cases i with
  | resolve attr ink fl =>
    cases h
    exact .inl ⟨_, _, rfl, rfl⟩
  | pal idx =>
    cases h
    exact .inl ⟨_, _, rfl, rfl⟩
  | addr x y =>
    simp only [exec, execAddr, address] at h
    cases hs : onScreen x y <;> simp only [hs, if_true] at h <;> cases h
    · exact .inr ⟨.badCoordinate, 0, ⟨rfl, hs⟩, rfl⟩
    · exact .inl ⟨_, _, rfl, rfl⟩
  | push v =>
    cases h
    exact .inl ⟨_, _, rfl, rfl⟩
  | decode sc ben bcol =>
    simp only [exec] at h
    rcases execDecode_cases sc ben bcol s with ⟨hb, he⟩ | ⟨hok, hx, he⟩ | ⟨-, -, -, he⟩ | ⟨hok, hx, raw, hr, he⟩
    · rw [he] at h
      cases h
      exact .inr ⟨_, _, .inl ⟨rfl, hb⟩, rfl⟩
    · rw [he] at h
      cases h
      exact .inr ⟨_, _, .inr ⟨rfl, hok, hx⟩, rfl⟩
    · rw [he] at h
      cases h
    · rw [he] at h
      cases h
      exact .inl ⟨_, _, ⟨hok.1, hok.2, hx, raw, hr, rfl⟩, rfl⟩
  | new sc ben bcol =>
    simp only [exec, execNew] at h
    cases hb : badBorderCol bcol <;> simp only [hb, if_true] at h <;> cases h
    · exact .inl ⟨_, _, ⟨(badBorderCol_eq_false bcol).mp hb, rfl⟩, rfl⟩
    · exact .inr ⟨_, _, ⟨rfl, by simpa [badBorderCol] using hb⟩, rfl⟩
  | set x y attr ink =>
    rcases State.needImage_cases h with ⟨hi, h⟩ | ⟨hi, rfl⟩
    · cases hs : onScreen x y <;> simp only [hs, if_true] at h <;> cases h
      · exact .inr ⟨_, _, .inr ⟨rfl, hi, hs⟩, rfl⟩
      · exact .inl ⟨_, _, ⟨hi, hs, rfl⟩, rfl⟩
    · exact .inr ⟨_, _, .inl ⟨rfl, hi⟩, rfl⟩
  | get x y =>
    rcases State.needImage_cases h with ⟨hi, h⟩ | ⟨hi, rfl⟩
    · cases h
      exact .inl ⟨_, _, ⟨hi, rfl⟩, rfl⟩
    · exact .inr ⟨_, _, ⟨rfl, hi⟩, rfl⟩
  | bounds =>
    rcases State.needImage_cases h with ⟨hi, h⟩ | ⟨hi, rfl⟩
    · cases h
      exact .inl ⟨_, _, ⟨hi, rfl⟩, rfl⟩
    · exact .inr ⟨_, _, ⟨rfl, hi⟩, rfl⟩
  | setflash en =>
    rcases State.needImage_cases h with ⟨hi, h⟩ | ⟨hi, rfl⟩
    · cases h
      exact .inl ⟨_, _, ⟨hi, rfl⟩, rfl⟩
    · exact .inr ⟨_, _, ⟨rfl, hi⟩, rfl⟩
  | hasflash =>
    rcases State.needImage_cases h with ⟨hi, h⟩ | ⟨hi, rfl⟩
    · cases h
      exact .inl ⟨_, _, ⟨hi, rfl⟩, rfl⟩
    · exact .inr ⟨_, _, ⟨rfl, hi⟩, rfl⟩
  | stat =>
    cases h
    exact .inl ⟨_, _, rfl, rfl⟩
  | clear =>
    cases h
    exact .inl ⟨_, _, rfl, rfl⟩

/-- Everything a step can do when it answers a next state. -/
theorem step_cases {s t : State} (h : step s = .next t) :
    (s.commands = [] ∧ t = s) ∨
    ∃ w rest, s.commands = w :: rest ∧
      ((∃ i, decodeWord w = .ok i ∧ exec i { s with commands := rest } = .next t) ∨
       (∃ e, decodeWord w = .error e ∧ t = ({ s with commands := rest } : State).raise .illegalCommand 0)) := by
  unfold step State.takeCommand at h
  cases hc : s.commands with
  | nil =>
    rw [hc] at h
    cases h
    exact .inl ⟨rfl, rfl⟩
  | cons w rest =>
    rw [hc] at h
    refine .inr ⟨w, rest, rfl, ?_⟩
    cases hd : decodeWord w with
    | ok i =>
      simp only [hd] at h
      exact .inl ⟨i, rfl, h⟩
    | error e =>
      simp only [hd] at h
      cases h
      exact .inr ⟨e, rfl, rfl⟩

end Sys2Proof.Machine
end

