-- ==== Sys2Proof/Laws/PerInstr.lean ====
section
/-!
SUPPORT. Statements made for every instruction, one lemma per constructor: the encoded word passes the mask
test of the instruction's row (R46, R49), that is, the opcode is right and every reserved bit is 0.
-/

namespace Sys2Proof.Laws.EncodeMatchesRow

/-- The encoded word carries the row's opcode and no reserved bit. -/
def Statement (i : Instr) : Prop := encode i &&& i.op.row.mask = i.op.row.pattern

theorem resolve (attr : Byte) (ink fl : Bool) : Statement (.resolve attr ink fl) := by
  have := attr.isLt
  rw [Statement, Op.row_test_iff, encode_resolve_toNat]
  simp only [Instr.op, Op.lowestFixed, Op.fixedValue]
  cases ink <;> cases fl <;> simp <;> omega

theorem pal (idx : Nat) : Statement (.pal idx) := by
  rw [Statement, Op.row_test_iff, encode_pal_toNat]
  simp only [Instr.op, Op.lowestFixed, Op.fixedValue]
  omega

theorem addr (x y : Nat) : Statement (.addr x y) := by
  rw [Statement, Op.row_test_iff, encode_addr_toNat]
  simp only [Instr.op, Op.lowestFixed, Op.fixedValue]
  omega

theorem push (b : Byte) : Statement (.push b) := by
  have := b.isLt
  rw [Statement, Op.row_test_iff, encode_push_toNat]
  simp only [Instr.op, Op.lowestFixed, Op.fixedValue]
  omega

theorem decode (scale : Int) (ben : Bool) (bcol : Nat) : Statement (.decode scale ben bcol) := by
  have := (BitVec.ofInt 8 scale).isLt
  rw [Statement, Op.row_test_iff, encode_decode_toNat]
  simp only [Instr.op, Op.lowestFixed, Op.fixedValue]
  cases ben <;> simp only [Bool.false_eq_true, if_true, if_false] <;> omega

theorem new (scale : Int) (ben : Bool) (bcol : Nat) : Statement (.new scale ben bcol) := by
  have := (BitVec.ofInt 8 scale).isLt
  rw [Statement, Op.row_test_iff, encode_new_toNat]
  simp only [Instr.op, Op.lowestFixed, Op.fixedValue]
  cases ben <;> simp only [Bool.false_eq_true, if_true, if_false] <;> omega

theorem set (x y : Nat) (attr : Byte) (ink : Bool) : Statement (.set x y attr ink) := by
  have := attr.isLt
  rw [Statement, Op.row_test_iff, encode_set_toNat]
  simp only [Instr.op, Op.lowestFixed, Op.fixedValue]
  cases ink <;> simp only [Bool.false_eq_true, if_true, if_false] <;> omega

theorem get (x y : Int) : Statement (.get x y) := by
  have := (BitVec.ofInt 14 x).isLt
  have := (BitVec.ofInt 14 y).isLt
  rw [Statement, Op.row_test_iff, encode_get_toNat]
  simp only [Instr.op, Op.lowestFixed, Op.fixedValue]
  omega

theorem bounds : Statement .bounds := by
  unfold Statement
  decide

theorem setflash (en : Bool) : Statement (.setflash en) := by
  unfold Statement
  cases en <;> decide

theorem hasflash : Statement .hasflash := by
  unfold Statement
  decide

theorem stat : Statement .stat := by
  unfold Statement
  decide

theorem clear : Statement .clear := by
  unfold Statement
  decide

end Sys2Proof.Laws.EncodeMatchesRow
end

