-- ==== Sys2Proof/Tests/Slice0.lean ====
section
/-!
SUPPORT. Tests of the model on the spec's own examples, and for every statement that has hypotheses a concrete
state and operands that meet them. Expected values are the spec's: the rule or the vector a test takes them from
stands in its comment.
-/

namespace Sys2Proof.Tests

open Sys2Proof Sys2Proof.Machine Sys2Proof.Machine.Claim

/-! ### Helpers -/

/-- The next state of an outcome, if it is one. -/
def after : Host.Outcome State Fault Refusal → Option State
  | .next t => some t
  | _ => none

theorem eq_next {o : Host.Outcome State Fault Refusal} {t : State} (h : after o = some t) : o = .next t := by
  cases o <;> simp_all [after]

/-- The response of one instruction. -/
def reply (i : Instr) (s : State) : Option Response := (after (exec i s)).bind fun t => t.responses.getLast?

/-- The block after one instruction. -/
def blockAfter (i : Instr) (s : State) : Block := ((after (exec i s)).getD s).blk

/-- The response of a step on one command word. -/
def replyWord (w : Word) (s : State) : Option Response := (after (step (s.present w))).bind fun t => t.responses.getLast?

/-- Reset state with a block of one's own. -/
def holding (b : Block) : State := { State.reset with blk := b }

/-- Reset state with a byte count of one's own. -/
def counting (n : Nat) (ovf : Bool) : State :=
  holding { Block.reset with rxCnt := BitVec.ofNat 13 n, rxOvf := ovf }

/-- Reset state with an image: the state of the block after `NEW sc, ben, bc`. -/
def canvas (sc : Nat) (ben : Bool) (bc : BitVec 4) : State := holding (Block.reset.construct sc ben bc)

/-- The pixel bytes of the screen of program P5: all 0x00. -/
@[irreducible] def filledPix : List Host.Cell := (List.range 6144).map fun i => (i, 0x00)

/-- Its attribute bytes: byte 0 is 0x80, the others 0x38. -/
@[irreducible] def filledAttr : List Host.Cell := (List.range 768).map fun j => (j, if j = 0 then 0x80 else 0x38)

/-- Reset state with that screen received. -/
def filled : State := holding { Block.reset with pix := filledPix, attr := filledAttr, rxCnt := 6912 }

theorem lookup_filledPix {i : Nat} (hi : i < 6144) : Mem.lookup filledPix i = some 0x00 := by
  unfold filledPix
  rw [Mem.lookup_map_range (fun _ => (0x00 : Byte)), if_pos hi]

theorem lookup_filledAttr {j : Nat} (hj : j < 768) :
    Mem.lookup filledAttr j = some (if j = 0 then 0x80 else 0x38) := by
  unfold filledAttr
  rw [Mem.lookup_map_range (fun j => if j = 0 then (0x80 : Byte) else 0x38), if_pos hj]

theorem filled_blk_pix : filled.blk.pix = filledPix := rfl

theorem filled_blk_attr : filled.blk.attr = filledAttr := rfl

theorem filled_pix (i : Nat) (hi : i < 6144) : filled.blk.readPix i = some 0x00 := by
  rw [Block.readPix, filled_blk_pix, if_pos (show i < pixBytes from hi), lookup_filledPix hi]

theorem filled_attr (j : Nat) (hj : j < 768) :
    filled.blk.readAttr j = some (if j = 0 then 0x80 else 0x38) := by
  rw [Block.readAttr, filled_blk_attr, if_pos (show j < attrBytes from hj), lookup_filledAttr hj]

theorem filled_rawFilled : RawFilled filled.blk :=
  ⟨fun i hi => by rw [filled_pix i hi]; rfl, fun j hj => by rw [filled_attr j hj]; rfl⟩

theorem filled_length : LengthOk filled.blk := ⟨rfl, rfl⟩

theorem filled_decodes {sc : Int} (ben : Bool) {bcol : Nat} (hok : OptionsOk sc bcol) :
    ∃ t, exec (.decode sc ben bcol) filled = .next t ∧ Answers filled t 0 0 := by
  obtain ⟨raw, hr⟩ := Block.rawScreen_isSome filled_rawFilled.1 filled_rawFilled.2
  exact ⟨_, exec_decode_next hok rfl hr, rfl, rfl⟩

/-! ### WellFormed: one ill-formed term for each check (R48, R55) -/

theorem test_wf_refuses_pal_16 : (Instr.pal 16).wellFormed = false := by decide
theorem test_wf_refuses_addr_x : (Instr.addr 256 0).wellFormed = false := by decide
theorem test_wf_refuses_addr_y : (Instr.addr 0 256).wellFormed = false := by decide
theorem test_wf_refuses_decode_scale :
    (Instr.decode 128 false 0).wellFormed = false ∧ (Instr.decode (-129) false 0).wellFormed = false := by decide
theorem test_wf_refuses_decode_bcol : (Instr.decode 1 false 256).wellFormed = false := by decide
theorem test_wf_refuses_new_scale :
    (Instr.new 128 false 0).wellFormed = false ∧ (Instr.new (-129) false 0).wellFormed = false := by decide
theorem test_wf_refuses_new_bcol : (Instr.new 1 false 256).wellFormed = false := by decide
theorem test_wf_refuses_set_x : (Instr.set 256 0 0 false).wellFormed = false := by decide
theorem test_wf_refuses_set_y : (Instr.set 0 256 0 false).wellFormed = false := by decide
theorem test_wf_refuses_get_x :
    (Instr.get 8192 0).wellFormed = false ∧ (Instr.get (-8193) 0).wellFormed = false := by decide
theorem test_wf_refuses_get_y :
    (Instr.get 0 8192).wellFormed = false ∧ (Instr.get 0 (-8193)).wellFormed = false := by decide

/-! ### Decoding: a word written out from the formats of R47 for every operation -/

theorem test_decode_resolve : decodeWord 0b0001_000000000000000000_0_1_01000111 = .ok (.resolve 0x47 true false) := by
  decide
theorem test_decode_resolve_fl : decodeWord 0b0001_000000000000000000_1_0_10010110 = .ok (.resolve 0x96 false true) := by
  decide
theorem test_decode_pal : decodeWord 0b0010_000000000000000000000000_1001 = .ok (.pal 9) := by decide
theorem test_decode_addr : decodeWord 0b0011_000000000000_00000001_00001000 = .ok (.addr 8 1) := by decide
theorem test_decode_push : decodeWord 0b0100_00000000000000000000_11111111 = .ok (.push 0xFF) := by decide
theorem test_decode_decode : decodeWord 0b0101_00000000000_1_00000000_00000010 = .ok (.decode 2 true 0) := by decide
theorem test_decode_decode_neg : decodeWord 0b0101_00000000000_0_11111111_10000000 = .ok (.decode (-128) false 255) := by
  decide
theorem test_decode_new : decodeWord 0b0110_00000000000_0_00010100_11111101 = .ok (.new (-3) false 20) := by decide
theorem test_decode_set : decodeWord 0b0111_000_1_01000111_00000010_00000011 = .ok (.set 3 2 0x47 true) := by decide
theorem test_decode_get : decodeWord 0b1000_00000000000000_11111111111111 = .ok (.get (-1) 0) := by decide
theorem test_decode_get_y : decodeWord 0b1000_10000000000000_01111111111111 = .ok (.get 8191 (-8192)) := by decide
theorem test_decode_bounds : decodeWord 0b1001_0000000000000000000000000000 = .ok .bounds := by decide
theorem test_decode_setflash : decodeWord 0b1010_000000000000000000000000000_1 = .ok (.setflash true) := by decide
theorem test_decode_hasflash : decodeWord 0b1011_0000000000000000000000000000 = .ok .hasflash := by decide
theorem test_decode_stat : decodeWord 0b1100_0000000000000000000000000000 = .ok .stat := by decide
theorem test_decode_clear : decodeWord 0b1101_0000000000000000000000000000 = .ok .clear := by decide

/-- The example words of R55. -/
theorem test_encode_examples :
    encode (.resolve 0x47 true false) = 0x10000147 ∧ encode (.pal 9) = 0x20000009 ∧
    encode (.addr 8 1) = 0x30000108 ∧ encode (.push 0xFF) = 0x400000FF ∧
    encode (.decode 2 true 0) = 0x50010002 ∧ encode (.new 1 false 0) = 0x60000001 ∧
    encode (.set 3 2 0x47 true) = 0x71470203 ∧ encode (.get (-1) 0) = 0x80003FFF ∧
    encode .bounds = 0x90000000 ∧ encode (.setflash true) = 0xA0000001 ∧ encode .hasflash = 0xB0000000 ∧
    encode .stat = 0xC0000000 ∧ encode .clear = 0xD0000000 := by
  decide

/-- Reserved opcodes are refused by name (R50, R51). -/
theorem test_decode_refuses_reserved_opcodes :
    decodeWord 0x00000000 = .error (.reservedOpcode 0x0) ∧ decodeWord 0xE0000000 = .error (.reservedOpcode 0xE) ∧
    decodeWord 0xFFFFFFFF = .error (.reservedOpcode 0xF) := by
  decide

/-- A reserved bit is refused by name, at both ends of the reserved fields (R47, R50). -/
theorem test_decode_refuses_reserved_bits :
    decodeWord 0x10000400 = .error (.reservedBits .resolve) ∧ decodeWord 0x20000010 = .error (.reservedBits .pal) ∧
    decodeWord 0x30010000 = .error (.reservedBits .addr) ∧ decodeWord 0x40000100 = .error (.reservedBits .push) ∧
    decodeWord 0x50020000 = .error (.reservedBits .decode) ∧ decodeWord 0x68000000 = .error (.reservedBits .new) ∧
    decodeWord 0x72000000 = .error (.reservedBits .set) ∧ decodeWord 0x90000001 = .error (.reservedBits .bounds) ∧
    decodeWord 0xA0000002 = .error (.reservedBits .setflash) ∧
    decodeWord 0xB8000000 = .error (.reservedBits .hasflash) ∧ decodeWord 0xC0000001 = .error (.reservedBits .stat) ∧
    decodeWord 0xD0000001 = .error (.reservedBits .clear) := by
  decide

/-- The opcode table is unambiguous: no two rows have the same opcode, and every mask covers the opcode (R50). -/
theorem test_opcode_rows_do_not_overlap :
    opcodeTable.Pairwise (fun a b => a.code ≠ b.code) ∧
    ∀ r ∈ opcodeTable, r.mask &&& 0xF0000000 = 0xF0000000 ∧ r.pattern >>> 28 = r.code.zeroExtend 32 := by
  decide

/-- The host's entry points agree with the decoder and the step. -/
theorem test_host_entry_points :
    decodeTableWord 32 0x71470203 = some (.set 3 2 0x47 true) ∧ decodeTableWord 32 0x10000400 = none ∧
    after (step (State.reset.withFetchWord 32 0x40000080)) = after (exec (.push 0x80) State.reset) := by
  decide

/-! ### Memories -/

/-- Writing keeps indices rising, replaces, and takes out what an unlisted unit reads as. -/
theorem test_mem_write_is_canonical :
    Mem.write (some (0x102 : GridCell)) (Mem.write (some 0x102) (Mem.write (some 0x102) [] 7 0x0C7) 3 0x001) 7 0x102
      = [(3, 0x001)] ∧
    Mem.write (none : Option Byte) (Mem.write none [] 5 1) 5 2 = [(5, 2)] := by
  decide

/-! ### attribute_colour_resolver -/

/-- R59 example: `RESOLVE 0x96, 1, 1`. -/
theorem test_resolve_swaps : reply (.resolve 0x96 true true) State.reset = some ⟨0, 0xEE0000FF⟩ := by decide
/-- P2 steps 12 and 14: the same attribute with the switch off. -/
theorem test_resolve_without_switch :
    reply (.resolve 0x96 true false) State.reset = some ⟨0, 0xEEEE00FF⟩ ∧
    reply (.resolve 0x96 false false) State.reset = some ⟨0, 0xEE0000FF⟩ := by
  decide
/-- R61 example: `PAL 13`; corner case: `PAL 0` and `PAL 8` are equal. -/
theorem test_pal :
    reply (.pal 13) State.reset = some ⟨0, 0x00FFFFFF⟩ ∧ reply (.pal 8) State.reset = some ⟨0, 0x000000FF⟩ := by
  decide

/-! ### memory_addressor_unit -/

/-- R66 example: `ADDR 8, 1`; P2: `ADDR 9, 10`. -/
theorem test_addr :
    reply (.addr 8 1) State.reset = some ⟨0, 0x00010101⟩ ∧ reply (.addr 9 10) State.reset = some ⟨0, 0x00212221⟩ := by
  decide
/-- P4 step 13. -/
theorem test_addr_below_screen : reply (.addr 0 192) State.reset = some ⟨7, 0⟩ := by decide
/-- R66 corner cases b and c: `row(7)` = 56, `row(8)` = 1, `row(63)` = 63, `row(64)` = 64. -/
theorem test_storage_rows : storageRow 7 = 56 ∧ storageRow 8 = 1 ∧ storageRow 63 = 63 ∧ storageRow 64 = 64 := by decide

/-! ### Decoder -/

/-- R70 example: the first byte. -/
theorem test_push_first :
    (blockAfter (.push 0x80) State.reset).readPix 0 = some 0x80 ∧ (blockAfter (.push 0x80) State.reset).rxCnt = 1 := by
  decide
/-- R70 corner case a: byte 6145 is `ATTR[0]`, byte 6913 sets `RXOVF`. -/
theorem test_push_edges :
    (blockAfter (.push 7) (counting 6144 false)).readAttr 0 = some 7 ∧
    (blockAfter (.push 7) (counting 6912 false)).rxOvf = true ∧
    (blockAfter (.push 7) (counting 6912 false)).rxCnt = 6912 := by
  decide
/-- P3 steps 3 and 5; P5 step 17. -/
theorem test_decode_errors :
    reply (.decode 1 true 0) (counting 100 false) = some ⟨1, 0x1B000064⟩ ∧
    reply (.decode 5 true 20) (counting 100 false) = some ⟨2, 3⟩ ∧
    reply (.decode 1 false 0) (counting 6912 true) = some ⟨1, 0x9B001B00⟩ := by
  decide
/-- P2: the pixel (9, 10) is on in a cell of attribute 0x96; its neighbour is a paper pixel of the same cell, and the
border is cyan. -/
theorem test_decode_image (raw : RawScreen)
    (h : raw = ⟨(List.replicate 545 (0x00 : Byte) ++ [0x40]).toArray, (List.replicate 33 (0x00 : Byte) ++ [0x96]).toArray⟩) :
    (Block.reset.decodeScreen 2 true 5 raw).readCell 68 82 = some 0x196 ∧
    (Block.reset.decodeScreen 2 true 5 raw).readCell 68 84 = some 0x096 ∧
    (Block.reset.decodeScreen 2 true 5 raw).readCell 47 63 = some 0x105 ∧
    (Block.reset.decodeScreen 2 true 5 raw).readCell 480 0 = none := by
  subst h
  simp only [Block.readCell_decodeScreen]
  decide +kernel
/-- R78 example: 100 bytes received. -/
theorem test_stat_count : reply .stat (counting 100 false) = some ⟨0, 0x00640000⟩ := by decide
/-- P4 step 16: `STATUS` = 0x2857. -/
theorem test_stat_fields :
    reply .stat (holding { (canvas 4 false 2).blk with flashOut := true, err := 7 }) = some ⟨0, 0x00002857⟩ := by
  decide
/-- R79 example. -/
theorem test_clear :
    reply .clear (canvas 4 false 2) = some ⟨0, 0⟩ ∧ (blockAfter .clear (canvas 4 false 2)).status = 0 := by
  decide
/-- P4 steps 14 and 15: illegal words; the first code stays in `ERR` (R101). -/
theorem test_illegal_words :
    replyWord 0x00000000 State.reset = some ⟨5, 0⟩ ∧ replyWord 0x10000400 State.reset = some ⟨5, 0⟩ ∧
    ((after (step ((holding { Block.reset with err := 7 }).present 0))).map fun t => t.blk.err) = some 7 := by
  decide

/-! ### frame_buffer_compositor -/

/-- R83 example: `NEW 2, 1, 9`, every cell 0x141; R80: 640 × 480. -/
theorem test_new :
    (blockAfter (.new 2 true 9) State.reset).readCell 479 639 = some 0x141 ∧
    (blockAfter (.new 2 true 9) State.reset).readCell 480 0 = none := by
  decide
/-- P4 step 1: the scale is clamped; R93: NEW reports 2. -/
theorem test_new_clamps :
    (blockAfter (.new 7 false 2) State.reset).scale = 4 ∧ (blockAfter (.new (-3) false 2) State.reset).scale = 1 ∧
    reply (.new 1 false 16) State.reset = some ⟨2, 2⟩ := by
  decide
/-- R85 example: `GRID[2][3]` = 0x147. -/
theorem test_set : (blockAfter (.set 3 2 0x47 true) (canvas 1 false 0)).readCell 2 3 = some 0x147 := by decide
/-- P4 steps 3 to 6: a block of 4 × 4 cells in the last corner; step 12. -/
theorem test_set_block :
    (blockAfter (.set 255 191 0xC7 false) (canvas 4 false 2)).readCell 767 1023 = some 0x0C7 ∧
    (blockAfter (.set 255 191 0xC7 false) (canvas 4 false 2)).readCell 764 1020 = some 0x0C7 ∧
    (blockAfter (.set 255 191 0xC7 false) (canvas 4 false 2)).readCell 764 1019 = some 0x102 ∧
    reply (.set 0 192 0x00 false) (canvas 4 false 2) = some ⟨7, 0⟩ := by
  decide
/-- R86 example: outside the grid. -/
theorem test_get_outside :
    reply (.get (-1) 0) (canvas 1 false 0) = some ⟨0, 0x000000FF⟩ ∧
    reply (.get 1024 767) (canvas 4 false 2) = some ⟨0, 0xEE0000FF⟩ := by
  decide
/-- P4 steps 4 and 9: the same cell under either value of the switch. -/
theorem test_get_flash :
    reply (.get 1023 767) (holding (blockAfter (.set 255 191 0xC7 false) (canvas 4 false 2))) = some ⟨0, 0x000000FF⟩ ∧
    reply (.get 1023 767) (holding ((blockAfter (.set 255 191 0xC7 false) (canvas 4 false 2)).switchFlash true))
      = some ⟨0, 0xFFFFFFFF⟩ := by
  decide
/-- R87 example: 640 × 480. -/
theorem test_bounds : reply .bounds (canvas 2 true 0) = some ⟨0, 0x01E00280⟩ := by decide
/-- P3 step 4: no image. -/
theorem test_no_image :
    reply (.get 0 0) State.reset = some ⟨6, 0⟩ ∧ reply .bounds State.reset = some ⟨6, 0⟩ ∧
    reply (.set 0 192 0 false) State.reset = some ⟨6, 0⟩ := by
  decide
/-- R88 example. -/
theorem test_setflash :
    reply (.setflash true) (canvas 1 false 0) = some ⟨0, 0⟩ ∧
    (blockAfter (.setflash true) (canvas 1 false 0)).flashOut = true := by
  decide
/-- R89 example and corner case a. -/
theorem test_hasflash :
    reply .hasflash (holding { (canvas 1 false 0).blk with hasFlash := true }) = some ⟨0, 1⟩ ∧
    reply .hasflash (canvas 1 false 0) = some ⟨0, 0⟩ := by
  decide

/-! ### Witnesses: for each statement with hypotheses, a state and operands that meet them all -/

theorem witness_DecodeOfEncodeIsTheInstruction :
    ∀ i ∈ [Instr.resolve 255 true true, .pal 15, .addr 255 255, .push 255, .decode (-128) true 255,
      .new 127 false 255, .set 255 255 255 true, .get (-8192) 8191, .bounds, .setflash true, .hasflash, .stat,
      .clear], i.wellFormed = true := by
  decide

theorem witness_EncodeOfDecodeIsTheWord : decodeWord 0x71470203 = .ok (.set 3 2 0x47 true) := by decide

theorem witness_WordIsOperationExactlyWhenMasked :
    (Op.resolve, (0x10000000 : Word), (0xFFFFFC00 : Word)) ∈ specRows ∧
    (0x10000147 : Word) &&& 0xFFFFFC00 = 0x10000000 ∧ (0x10000400 : Word) &&& 0xFFFFFC00 ≠ 0x10000000 := by
  decide

/-- One word for each of the four grounds. -/
theorem witness_IllegalWordRaisesIllegalCommand :
    (∀ w : Word, (State.reset.present w).commands = w :: []) ∧
    (0x00000000 : Word) >>> 28 = 0x0 ∧ (0xE0000000 : Word) >>> 28 = 0xE ∧ (0xFFFFFFFF : Word) >>> 28 = 0xF ∧
    ∃ row ∈ specRows, (0xD0000001 : Word) >>> 28 = row.2.1 >>> 28 ∧ 0xD0000001 &&& row.2.2 ≠ row.2.1 :=
  ⟨fun _ => rfl, by decide, by decide, by decide, by decide⟩

theorem witness_StepRunsTheDecodedInstruction :
    (State.reset.present 0xC0000000).commands = 0xC0000000 :: [] ∧ decodeWord 0xC0000000 = .ok .stat ∧
    Instr.stat.wellFormed = true ∧ State.reset.commands = [] := by
  decide

theorem witness_EveryCommandGetsOneResponse :
    (State.reset.present 0xC0000000).commands = 0xC0000000 :: [] ∧
    ∃ t, step (State.reset.present 0xC0000000) = .next t :=
  ⟨rfl, _, rfl⟩

theorem witness_FailedCommandWritesOnlyErr :
    (State.reset.present 0x80000000).commands = 0x80000000 :: [] ∧
    ∃ t, step (State.reset.present 0x80000000) = .next t ∧
      t.responses = State.reset.responses ++ [⟨6, 0⟩] ∧ (6 : BitVec 4) ≠ 0 :=
  ⟨rfl, _, rfl, rfl, by decide⟩

/-- CLEAR; an error when `ERR` is 0; a success and an error when it is not. -/
theorem witness_ErrKeepsTheFirstCode :
    (decodeWord 0xD0000000 = .ok .clear ∧
      ∃ t, step (State.reset.present 0xD0000000) = .next t ∧ t.responses = State.reset.responses ++ [⟨0, 0⟩]) ∧
    (decodeWord 0x80000000 ≠ .ok .clear ∧ State.reset.blk.err = 0 ∧
      ∃ t, step (State.reset.present 0x80000000) = .next t ∧ t.responses = State.reset.responses ++ [⟨6, 0⟩]) ∧
    (decodeWord 0x20000000 ≠ .ok .clear ∧
      ∃ s t : State, s.blk.err ≠ 0 ∧ s.commands = 0x20000000 :: [] ∧ step s = .next t ∧
        t.responses = s.responses ++ [⟨0, 0x000000FF⟩]) ∧
    ∃ s t : State, s.blk.err ≠ 0 ∧ s.commands = 0x80000000 :: [] ∧ step s = .next t ∧ t.responses = s.responses ++ [⟨6, 0⟩] :=
  ⟨⟨by decide, _, rfl, rfl⟩, ⟨by decide, rfl, _, rfl, rfl⟩,
    ⟨by decide, (holding { Block.reset with err := 7 }).present 0x20000000, _, by decide, rfl, rfl, rfl⟩,
    (holding { Block.reset with err := 7 }).present 0x80000000, _, by decide, rfl, rfl, rfl⟩

theorem witness_StepKeepsLegalErrorCodes :
    LegalCode (7 : BitVec 4) ∧
    ∃ s t : State, s.blk.err = 7 ∧ (∀ r ∈ s.responses, LegalCode r.err) ∧ step s = .next t :=
  ⟨by decide, (holding { Block.reset with err := 7 }).present 0, _, rfl, by decide, rfl⟩

theorem witness_NoImageIsRaisedExactlyWithoutImage :
    State.reset.blk.imgValid = false ∧
    (∀ i ∈ [Instr.set 0 192 0 false, .get 0 0, .bounds, .setflash true, .hasflash],
      i.op ∈ [Op.set, .get, .bounds, .setflash, .hasflash]) ∧
    ∃ t, exec .bounds State.reset = .next t ∧ Answers State.reset t 6 0 :=
  ⟨rfl, by decide, _, rfl, rfl, rfl⟩

theorem witness_BadCoordinateIsRaisedExactlyBelowTheScreen :
    192 ≤ 192 ∧ (canvas 1 false 0).blk.imgValid = true ∧
    (Instr.addr 0 192).wellFormed = true ∧ (Instr.set 0 192 0 false).wellFormed = true ∧
    (∃ t, exec (.addr 0 192) State.reset = .next t ∧ Answers State.reset t 7 0) ∧
    ∃ t, exec (.set 0 192 0 false) (canvas 1 false 0) = .next t ∧ Answers (canvas 1 false 0) t 7 0 :=
  ⟨by decide, rfl, by decide, by decide, ⟨_, rfl, rfl, rfl⟩, _, rfl, rfl, rfl⟩

theorem witness_InvalidOptionsReportsTheBadFields :
    ¬ OptionsOk 0 15 ∧ ¬ OptionsOk 5 15 ∧ ¬ OptionsOk 1 16 ∧ 15 < 16 := by
  simp [OptionsOk]

/-- Too few by one, none at all, and one too many. -/
theorem witness_TruncatedInputReportsTheCounts :
    OptionsOk 1 0 ∧ OptionsOk 4 15 ∧ (counting 6911 false).blk.rxCnt.toNat ≠ 6912 ∧
    State.reset.blk.rxCnt.toNat ≠ 6912 ∧ (counting 6912 true).blk.rxOvf = true := by
  refine ⟨by simp [OptionsOk], by simp [OptionsOk], by decide, by decide, rfl⟩

theorem witness_ErrorPriorityInSetAndDecode :
    State.reset.blk.imgValid = false ∧ 192 ≤ 192 ∧ ¬ OptionsOk 5 20 ∧ ¬ LengthOk State.reset.blk := by
  refine ⟨rfl, by decide, by simp [OptionsOk], fun h => absurd h.1 (by decide)⟩

theorem filled_consistent : filled.blk.Consistent := by
  refine ⟨⟨by decide, fun h => rfl⟩, fun _ => ⟨rfl, rfl, rfl, rfl, rfl⟩, fun h => absurd h (by decide), ?_, ?_⟩
  · exact fun i hi => filled_rawFilled.1 i (Nat.lt_of_lt_of_le hi (Nat.min_le_right _ _))
  · intro j hj
    refine filled_rawFilled.2 j ?_
    have h : filled.blk.rxCnt.toNat = 6912 := filled_length.1
    omega

theorem witness_OperationsThatCannotFail :
    (Instr.push 0).op ∈ [Op.resolve, .pal, .push, .stat, .clear] ∧
    ((Instr.get 0 0).op ∈ [Op.get, .bounds, .setflash, .hasflash] ∧ (canvas 1 false 0).blk.imgValid = true) ∧
    filled.blk.Consistent ∧ OptionsOk 4 15 ∧ LengthOk filled.blk :=
  ⟨by decide, ⟨by decide, rfl⟩, filled_consistent, by simp [OptionsOk], filled_length⟩

/-- For each clause an operation that the premise names. -/
theorem witness_StateIsWrittenOnlyByItsOperations :
    (∃ t, exec (.new 1 false 0) State.reset = .next t) ∧ (Instr.new 1 false 0).op ∉ [Op.push, .clear] ∧
    (∃ t, exec (.push 0) State.reset = .next t) ∧ (Instr.push 0).op ∉ [Op.new, .decode, .clear] ∧
    (∃ t, exec (.setflash true) (canvas 1 false 0) = .next t) ∧
    (Instr.setflash true).op ∉ [Op.new, .decode, .set, .clear] ∧
    (∃ t, exec (.set 0 0 0 false) (canvas 1 false 0) = .next t) ∧
    (Instr.set 0 0 0 false).op ∉ [Op.setflash, .new, .decode, .clear] :=
  ⟨⟨_, rfl⟩, by decide, ⟨_, rfl⟩, by decide, ⟨_, rfl⟩, by decide, ⟨_, rfl⟩, by decide⟩

theorem witness_ReadsChangeNothingAndRepeat :
    (Instr.get (-1) 0).op ∈ [Op.get, .resolve, .pal, .addr, .bounds, .hasflash, .stat] ∧
    ∃ t, exec (.get (-1) 0) (canvas 1 false 2) = .next t ∧ Answers (canvas 1 false 2) t 0 0xEE0000FF :=
  ⟨by decide, _, rfl, rfl, rfl⟩

theorem witness_OnlyClearLowersCountersAndFlags :
    ∃ s t : State, s.commands = 0x00000000 :: [] ∧ decodeWord 0x00000000 ≠ .ok .clear ∧ step s = .next t ∧
      s.blk.rxOvf = true ∧ s.blk.imgValid = true ∧ s.blk.err ≠ 0 :=
  ⟨(holding { (canvas 1 false 0).blk with rxCnt := 6912, rxOvf := true, err := 7 }).present 0, _, rfl, by decide,
    rfl, rfl, rfl, by decide⟩

theorem witness_RawScreenIsImmutableOnceFull :
    filled.blk.rxCnt.toNat = 6912 ∧ Instr.push 1 ≠ .clear ∧ ∃ t, exec (.push 1) filled = .next t :=
  ⟨rfl, by decide, _, rfl⟩

theorem witness_StepKeepsConsistency :
    (filled.present 0x40000001).blk.Consistent ∧ ∃ t, step (filled.present 0x40000001) = .next t :=
  ⟨filled_consistent, _, rfl⟩

theorem witness_ConsistentStatesNeverStop : (filled.present 0x50000001).blk.Consistent := filled_consistent

theorem canvas_memOk : (canvas 2 true 5).blk.MemOk :=
  ⟨Mem.nil_wf _ _, Mem.nil_wf _ _, Mem.nil_wf _ _, fun _ => rfl⟩

theorem canvas_borderOk : (canvas 2 true 5).blk.BorderOk := by
  intro _ r c hr hc _
  show (Block.reset.construct 2 true 5).readCell r c = _
  rw [Block.readCell_construct, if_pos ⟨hr, hc⟩]
  rfl

theorem witness_StepKeepsMemoriesCanonical :
    ((canvas 2 true 5).present 0x71000000).blk.MemOk ∧
    ∃ t, step ((canvas 2 true 5).present 0x71000000) = .next t :=
  ⟨canvas_memOk, _, rfl⟩

theorem witness_StepKeepsTheBorder :
    ((canvas 2 true 5).present 0x71000000).blk.BorderOk ∧
    ∃ t, step ((canvas 2 true 5).present 0x71000000) = .next t :=
  ⟨canvas_borderOk, _, rfl⟩

theorem witness_PalAnswersTheEntry : 0 < 16 ∧ 15 < 16 := by decide

theorem witness_ColoursAreOpaquePaletteEntries :
    (Instr.pal 15).wellFormed = true ∧ (Instr.pal 15).op ∈ [Op.resolve, .pal, .get] ∧
    ∃ t, exec (.pal 15) State.reset = .next t ∧ Answers State.reset t 0 0xFFFFFFFF :=
  ⟨by decide, by decide, _, rfl, rfl, rfl⟩

theorem witness_AddrAnswersTheIndices : 255 < 256 ∧ 191 < 192 := by decide

theorem witness_AddressMapIsBijectiveAndCellwise :
    191 < 192 ∧ 6143 < 6144 ∧ 7 < 8 ∧ 767 < 768 ∧ address 255 191 = some ⟨6143, 7, 767⟩ := by
  decide

/-- The counts at the edges of the clauses. -/
theorem witness_PushStoresTheNextStreamByte :
    (counting 0 false).blk.rxCnt.toNat < 6912 ∧ (counting 6143 false).blk.rxCnt.toNat < 6912 ∧
    (counting 6144 false).blk.rxCnt.toNat < 6912 ∧ (counting 6911 false).blk.rxCnt.toNat < 6912 ∧
    6912 ≤ (counting 6912 false).blk.rxCnt.toNat := by
  decide

theorem witness_PushedStreamFillsTheBuffers :
    State.reset.blk.rxCnt = 0 ∧ (List.replicate 6912 (0xFF : Byte)).length ≤ 6912 :=
  ⟨rfl, by rw [List.length_replicate]⟩

theorem witness_DecodeBuildsTheSpecifiedImage :
    OptionsOk 1 0 ∧ OptionsOk 4 15 ∧ LengthOk filled.blk ∧
    (∀ i, i < 6144 → filled.blk.readPix i = some ((fun _ => 0x00) i)) ∧
    ∀ j, j < 768 → filled.blk.readAttr j = some ((fun j => if j = 0 then 0x80 else 0x38) j) :=
  ⟨by simp [OptionsOk], by simp [OptionsOk], filled_length, filled_pix, filled_attr⟩

theorem witness_DecodeEqualsThePixelWalk :
    OptionsOk 1 0 ∧ OptionsOk 4 15 ∧ LengthOk filled.blk ∧ RawFilled filled.blk :=
  ⟨by simp [OptionsOk], by simp [OptionsOk], filled_length, filled_rawFilled⟩

theorem witness_HasflashAfterDecodeMeansSomeFlashByte :
    ∃ t, exec (.decode 1 true 7) filled = .next t ∧ Answers filled t 0 0 :=
  filled_decodes true (by simp [OptionsOk])

theorem witness_DecodeAgainNeedsNoReload :
    (∃ t, exec (.decode 1 true 7) filled = .next t ∧ Answers filled t 0 0) ∧ OptionsOk 3 0 :=
  ⟨filled_decodes true (by simp [OptionsOk]), by simp [OptionsOk]⟩

theorem witness_ConversionGivesTheImageOfTheStream :
    State.reset.blk = Block.reset ∧ (List.replicate 6912 (0xFF : Byte)).length = 6912 ∧ OptionsOk 2 5 :=
  ⟨rfl, List.length_replicate, by simp [OptionsOk]⟩

/-- The largest border colour, and a scale for each clause. -/
theorem witness_NewBuildsAnImageOfBorderCells :
    15 ≤ 15 ∧ (0 : Int) ≤ 0 ∧ (-128 : Int) ≤ 0 ∧ (4 : Int) < 5 ∧ (1 : Int) ≤ 4 ∧ (4 : Int) ≤ 4 := by
  decide

/-- The last pixel of the screen: a cell of its block and a cell beside it. -/
theorem witness_SetFillsTheBlockOfThePixel :
    (canvas 2 true 5).blk.imgValid = true ∧ 255 < 256 ∧ 191 < 192 ∧
    InBlock (canvas 2 true 5).blk 255 191 431 575 ∧ ¬ InBlock (canvas 2 true 5).blk 255 191 432 575 := by
  unfold InBlock
  decide

theorem witness_BlocksTileTheScaledScreen :
    1 ≤ (canvas 2 true 5).blk.scale.toNat ∧ (canvas 2 true 5).blk.OnScaledScreen 431 575 ∧
    (431, 575) ∈ (canvas 2 true 5).blk.blockCells 255 191 := by
  decide

/-- The last cell of the grid, and a coordinate beyond each edge. -/
theorem witness_GetAnswersCellOrBorderColour :
    (canvas 2 true 5).blk.imgValid = true ∧
    ((0 ≤ (639 : Int) ∧ (639 : Int) < specW 2 true) ∧ 0 ≤ (479 : Int) ∧ (479 : Int) < specH 2 true) ∧
    ¬ ((640 : Int) < specW 2 true) ∧ ¬ ((480 : Int) < specH 2 true) ∧ ¬ (0 ≤ (-1 : Int)) := by
  decide

theorem witness_GetAfterSetShowsTheColour :
    (canvas 2 true 5).blk.imgValid = true ∧ 255 < 256 ∧ 191 < 192 ∧
    InBlock (canvas 2 true 5).blk 255 191 431 575 ∧
    ∃ t, exec (.set 255 191 0xC7 false) (canvas 2 true 5) = .next t :=
  ⟨rfl, by decide, by decide, by unfold InBlock; decide, _, rfl⟩

theorem witness_BorderNeverFlashes :
    (canvas 2 true 5).blk.imgValid = true ∧ (canvas 2 true 5).blk.BorderOk ∧
    47 < (canvas 2 true 5).blk.height ∧ 63 < (canvas 2 true 5).blk.width ∧
    ¬ (canvas 2 true 5).blk.OnScaledScreen 47 63 :=
  ⟨rfl, canvas_borderOk, by decide, by decide, by decide⟩

/-- A flashing cell with ink and paper that differ, and a border cell. -/
theorem witness_FlashSwitchShowsExactlyOnFlashingCells :
    (∃ (s : State) (v : GridCell), s.blk.imgValid = true ∧ s.blk.readCell 48 64 = some v ∧
      v.toNat / 128 % 2 = 1 ∧ v.toNat % 8 ≠ v.toNat / 8 % 8) ∧
    ∃ v : GridCell, (canvas 2 true 5).blk.readCell 0 0 = some v ∧ ¬ (v.toNat / 128 % 2 = 1) :=
  ⟨⟨holding (blockAfter (.set 0 0 0x96 true) (canvas 2 true 5)), 0x196, by decide, by decide, by decide, by decide⟩,
    0x105, by decide, by decide⟩

theorem witness_BoundsAnswersTheGridSize : (canvas 4 true 0).blk.imgValid = true := rfl

theorem witness_SetflashWritesAndHasflashReads : (canvas 4 true 0).blk.imgValid = true := rfl

end Sys2Proof.Tests
end

section
/-!
PROOFS. The round trip of the encoding, from instruction to word and back (R46 to R50): a field of a word is a
quotient of the word's number, and the word of a well-formed instruction holds each operand in its own field.
-/

namespace Sys2Proof

/-! ### A field as a quotient of the word's number -/

theorem extractLsb'_eq_of_toNat {w : Word} {lo len : Nat} {v : BitVec len}
    (h : w.toNat / 2 ^ lo % 2 ^ len = v.toNat) : w.extractLsb' lo len = v := by
  rw [← BitVec.toNat_inj, BitVec.extractLsb'_toNat, Nat.shiftRight_eq_div_pow, h]

theorem fieldU_eq_of_toNat {w : Word} {lo len n : Nat} (h : w.toNat / 2 ^ lo % 2 ^ len = n) :
    fieldU w lo len = n := by
  rw [fieldU, BitVec.extractLsb'_toNat, Nat.shiftRight_eq_div_pow, h]

/-- A signed field that holds the low bits of a number in its range reads as that number (R13, R48). -/
theorem fieldS_eq_of_toNat {w : Word} {lo len : Nat} {z : Int} (hlen : 0 < len)
    (hlo : -2 ^ (len - 1) ≤ z) (hhi : z < 2 ^ (len - 1))
    (h : w.toNat / 2 ^ lo % 2 ^ len = (BitVec.ofInt len z).toNat) : fieldS w lo len = z := by
  rw [fieldS, extractLsb'_eq_of_toNat h, BitVec.toInt_ofInt_eq_self hlen hlo hhi]

theorem getLsbD_eq_of_toNat {w : Word} {k : Nat} {b : Bool}
    (h : w.toNat / 2 ^ k % 2 = if b then 1 else 0) : w.getLsbD k = b := by
  have hk : w.getLsbD k = decide (w.toNat / 2 ^ k % 2 = 1) := Nat.testBit_eq_decide_div_mod_eq
  rw [hk, h]
  cases b <;> rfl

theorem flag_le_one (b : Bool) : (if b then 1 else 0) ≤ 1 := by
  cases b <;> decide

/-! ### Decoding an encoded instruction -/

/-- The operand fields that DECODE and NEW share, under any opcode (R47, R48). -/
theorem optionFields_of_toNat {w : Word} {opcode : Nat} {sc : Int} {ben : Bool} {bcol : Nat}
    (hw : w.toNat = opcode * 2 ^ 28 + (if ben then 1 else 0) * 65536 + bcol % 256 * 256 +
      (BitVec.ofInt 8 sc).toNat)
    (hsc : -128 ≤ sc ∧ sc ≤ 127) (hbcol : bcol < 256) :
    fieldS w 0 8 = sc ∧ w.getLsbD 16 = ben ∧ fieldU w 8 8 = bcol := by
  have hs := (BitVec.ofInt 8 sc).isLt
  have hb := flag_le_one ben
  exact ⟨fieldS_eq_of_toNat (by decide) (by omega) (by omega) (by omega), getLsbD_eq_of_toNat (by omega),
    fieldU_eq_of_toNat (by omega)⟩

/-- The fields of the word of a well-formed instruction are its operands (R47, R48). -/
theorem readOperands_encode {i : Instr} (h : i.wellFormed = true) : readOperands i.op (encode i) = i := by
  cases i with
  | resolve attr ink fl =>
    have hw := encode_resolve_toNat attr ink fl
    have hattr := attr.isLt
    have hink := flag_le_one ink
    have hfl := flag_le_one fl
    simp only [Instr.op, readOperands, Instr.resolve.injEq]
    exact ⟨extractLsb'_eq_of_toNat (by omega), getLsbD_eq_of_toNat (by omega), getLsbD_eq_of_toNat (by omega)⟩
  | pal idx =>
    have hw := encode_pal_toNat idx
    simp only [Instr.wellFormed, decide_eq_true_eq] at h
    simp only [Instr.op, readOperands, Instr.pal.injEq]
    exact fieldU_eq_of_toNat (by omega)
  | addr x y =>
    have hw := encode_addr_toNat x y
    simp only [Instr.wellFormed, Bool.and_eq_true, decide_eq_true_eq] at h
    simp only [Instr.op, readOperands, Instr.addr.injEq]
    exact ⟨fieldU_eq_of_toNat (by omega), fieldU_eq_of_toNat (by omega)⟩
  | push b =>
    have hw := encode_push_toNat b
    have hb := b.isLt
    simp only [Instr.op, readOperands, Instr.push.injEq]
    exact extractLsb'_eq_of_toNat (by omega)
  | decode sc ben bcol =>
    simp only [Instr.wellFormed, Bool.and_eq_true, decide_eq_true_eq] at h
    simp only [Instr.op, readOperands, Instr.decode.injEq]
    exact optionFields_of_toNat (opcode := 5) (encode_decode_toNat sc ben bcol) h.1 h.2
  | new sc ben bcol =>
    simp only [Instr.wellFormed, Bool.and_eq_true, decide_eq_true_eq] at h
    simp only [Instr.op, readOperands, Instr.new.injEq]
    exact optionFields_of_toNat (opcode := 6) (encode_new_toNat sc ben bcol) h.1 h.2
  | set x y attr ink =>
    have hw := encode_set_toNat x y attr ink
    have hattr := attr.isLt
    have hink := flag_le_one ink
    simp only [Instr.wellFormed, Bool.and_eq_true, decide_eq_true_eq] at h
    simp only [Instr.op, readOperands, Instr.set.injEq]
    exact ⟨fieldU_eq_of_toNat (by omega), fieldU_eq_of_toNat (by omega), extractLsb'_eq_of_toNat (by omega),
      getLsbD_eq_of_toNat (by omega)⟩
  | get x y =>
    have hw := encode_get_toNat x y
    have hx := (BitVec.ofInt 14 x).isLt
    have hy := (BitVec.ofInt 14 y).isLt
    simp only [Instr.wellFormed, Bool.and_eq_true, decide_eq_true_eq] at h
    simp only [Instr.op, readOperands, Instr.get.injEq]
    exact ⟨fieldS_eq_of_toNat (by decide) (by omega) (by omega) (by omega),
      fieldS_eq_of_toNat (by decide) (by omega) (by omega) (by omega)⟩
  | setflash en =>
    have hw := encode_setflash_toNat en
    have hen := flag_le_one en
    simp only [Instr.op, readOperands, Instr.setflash.injEq]
    exact getLsbD_eq_of_toNat (by omega)
  | bounds => rfl
  | hasflash => rfl
  | stat => rfl
  | clear => rfl

/-- The word of an instruction passes the mask test of the instruction's row (R46, R49). -/
theorem encode_passes_row (i : Instr) : encode i &&& i.op.row.mask = i.op.row.pattern := by
  cases i with
  | resolve attr ink fl => exact Laws.EncodeMatchesRow.resolve attr ink fl
  | pal idx => exact Laws.EncodeMatchesRow.pal idx
  | addr x y => exact Laws.EncodeMatchesRow.addr x y
  | push b => exact Laws.EncodeMatchesRow.push b
  | decode sc ben bcol => exact Laws.EncodeMatchesRow.decode sc ben bcol
  | new sc ben bcol => exact Laws.EncodeMatchesRow.new sc ben bcol
  | set x y attr ink => exact Laws.EncodeMatchesRow.set x y attr ink
  | get x y => exact Laws.EncodeMatchesRow.get x y
  | bounds => exact Laws.EncodeMatchesRow.bounds
  | setflash en => exact Laws.EncodeMatchesRow.setflash en
  | hasflash => exact Laws.EncodeMatchesRow.hasflash
  | stat => exact Laws.EncodeMatchesRow.stat
  | clear => exact Laws.EncodeMatchesRow.clear

/-- Decoding inverts encoding on well-formed instructions (R50). -/
theorem decodeWord_encode {i : Instr} (h : i.wellFormed = true) : decodeWord (encode i) = .ok i :=
  (decodeWord_ok_iff _ _).mpr ⟨i.op, encode_passes_row i, (readOperands_encode h).symm⟩

end Sys2Proof
end

section
/-!
PROOFS. One step on one command (R16, R50): what it runs, and the one response it returns.
-/

namespace Sys2Proof.Machine

/-! ### What a step runs -/

theorem step_of_decodes {s : State} {w : Word} {rest : List Word} {i : Instr} (hc : s.commands = w :: rest)
    (hd : decodeWord w = .ok i) : step s = exec i { s with commands := rest } := by
  simp only [step, State.takeCommand, hc, hd]

theorem step_of_no_command {s : State} (hc : s.commands = []) : step s = .next s := by
  simp only [step, State.takeCommand, hc]

/-- Presenting a word by its number presents the word (R46). -/
theorem withFetchWord_toNat (s : State) (w : Word) : s.withFetchWord 32 w.toNat = s.present w := by
  rw [State.withFetchWord, Nat.mod_eq_of_lt w.isLt, BitVec.ofNat_toNat, BitVec.setWidth_eq]

theorem step_present_of_decodes {w : Word} {i : Instr} (s : State) (hd : decodeWord w = .ok i) :
    step (s.present w) = exec i s :=
  step_of_decodes (s.present_commands w) hd

/-- What a step with a command can do when it answers a next state: `step_cases` without the idle case. -/
theorem step_command_cases {s t : State} {w : Word} {rest : List Word} (hc : s.commands = w :: rest)
    (h : step s = .next t) :
    (∃ i, decodeWord w = .ok i ∧ exec i { s with commands := rest } = .next t) ∨
    (∃ e, decodeWord w = .error e ∧ t = ({ s with commands := rest } : State).raise .illegalCommand 0) := by
  rcases step_cases h with ⟨hnil, -⟩ | ⟨w', rest', hc', hcases⟩
  · cases hc.symm.trans hnil
  · cases hc.symm.trans hc'
    exact hcases

/-! ### The one response -/

/-- A completed or failed instruction takes in no command and returns one response (R16). -/
theorem exec_returns_one_response {i : Instr} {s t : State} (h : exec i s = .next t) :
    t.commands = s.commands ∧ ∃ r, t.responses = s.responses ++ [r] := by
  rcases exec_cases h with ⟨b', d, -, rfl⟩ | ⟨e, d, -, rfl⟩
  · exact ⟨rfl, ⟨0, d⟩, rfl⟩
  · exact ⟨rfl, ⟨errorCode e, d⟩, rfl⟩

/-! ### The obligations -/

/-- Settles O7: a legal word's instruction returns one response, and an illegal word raises one error. -/
theorem everyCommandGetsOneResponse : Obligations.EveryCommandGetsOneResponse := by
  intro s t w rest hc h
  rcases step_command_cases hc h with ⟨i, -, hexec⟩ | ⟨e, -, rfl⟩
  · exact exec_returns_one_response hexec
  · exact ⟨rfl, ⟨errorCode .illegalCommand, 0⟩, rfl⟩

/-- Settles O6: the step's own equations, and the encoding's round trip for the instruction presented next. -/
theorem stepRunsTheDecodedInstruction : Obligations.StepRunsTheDecodedInstruction := by
  refine ⟨fun s w rest i hc hd => step_of_decodes hc hd, fun s i hwf => ?_, fun s hc => step_of_no_command hc⟩
  rw [withFetchWord_toNat]
  exact step_present_of_decodes s (decodeWord_encode hwf)

end Sys2Proof.Machine
end

section
/-!
PROOFS. What one command can write into the block, said once, and from it the frame of every instruction (R19, R29)
and the invariants that every step keeps (R20, and the canonical form of the memories).
-/

namespace Sys2Proof.Machine

open Claim

/-! ### What a completed instruction writes -/

/-- What a completed instruction can do to the block: `Completes` by the write that is done, with all the
instructions that write nothing in one case. -/
inductive Writes : Instr → Block → Block → Prop where
  | nothing (i : Instr) (b : Block) : Writes i b b
  | push (v : Byte) (b : Block) : Writes (.push v) b (b.receive v)
  | decode {sc : Int} {ben : Bool} {bcol : Nat} {b : Block} {raw : RawScreen}
      (hsc : 1 ≤ sc ∧ sc ≤ 4) (hcol : bcol ≤ 15) (hexact : b.rawExact = true) (hraw : b.rawScreen = some raw) :
      Writes (.decode sc ben bcol) b (b.decodeScreen sc.toNat ben (BitVec.ofNat 4 bcol) raw)
  | new (sc : Int) (ben : Bool) {bcol : Nat} (b : Block) (hcol : bcol ≤ 15) :
      Writes (.new sc ben bcol) b (b.construct (clampScale sc) ben (BitVec.ofNat 4 bcol))
  | set {x y : Nat} (attr : Byte) (ink : Bool) {b : Block} (himg : b.imgValid = true)
      (hxy : onScreen x y = true) : Writes (.set x y attr ink) b (b.writeBlock x y (mkCell ink attr))
  | setflash (en : Bool) {b : Block} (himg : b.imgValid = true) : Writes (.setflash en) b (b.switchFlash en)
  | clear (b : Block) : Writes .clear b Block.reset

theorem Completes.writes {i : Instr} {b b' : Block} (h : Completes i b b') : Writes i b b' := by
  cases i with
  | resolve | pal | addr | stat => cases h; exact .nothing _ _
  | get | bounds | hasflash => obtain ⟨-, rfl⟩ := h; exact .nothing _ _
  | push v => cases h; exact .push v b
  | decode => obtain ⟨hsc, hcol, hexact, raw, hraw, rfl⟩ := h; exact .decode hsc hcol hexact hraw
  | new sc ben => obtain ⟨hcol, rfl⟩ := h; exact .new sc ben b hcol
  | set _ _ attr ink => obtain ⟨himg, hxy, rfl⟩ := h; exact .set attr ink himg hxy
  | setflash en => obtain ⟨himg, rfl⟩ := h; exact .setflash en himg
  | clear => cases h; exact .clear b

/-- An instruction that answers a next state has done its write, or has failed and set `ERR` (R100). -/
theorem exec_writes {i : Instr} {s t : State} (h : exec i s = .next t) :
    Writes i s.blk t.blk ∨ ∃ e, t.blk = s.blk.latchErr e := by
  rcases exec_cases h with ⟨b', d, hdone, rfl⟩ | ⟨e, d, -, rfl⟩
  · exact .inl hdone.writes
  · exact .inr ⟨e, rfl⟩

/-- A property of the block that every write and every error keeps, every step keeps. -/
theorem step_keeps {P : Block → Prop} (herr : ∀ b e, P b → P (b.latchErr e))
    (hwrite : ∀ i b b', Writes i b b' → P b → P b') {s t : State} (hs : P s.blk) (h : step s = .next t) :
    P t.blk := by
  rcases step_cases h with ⟨-, rfl⟩ | ⟨w, rest, -, ⟨i, -, hexec⟩ | ⟨e, -, rfl⟩⟩
  · exact hs
  · rcases exec_writes hexec with hw | ⟨e, he⟩
    · exact hwrite i _ _ hw hs
    · rw [he]
      exact herr _ e hs
  · exact herr _ _ hs

/-! ### What each write leaves alone -/

@[simp] theorem Block.writeBlock_imgValid (b : Block) (x y : Nat) (v : GridCell) :
    (b.writeBlock x y v).imgValid = b.imgValid := by rw [Block.writeBlock_eq]
@[simp] theorem Block.writeBlock_scale (b : Block) (x y : Nat) (v : GridCell) :
    (b.writeBlock x y v).scale = b.scale := by rw [Block.writeBlock_eq]
@[simp] theorem Block.writeBlock_borderEn (b : Block) (x y : Nat) (v : GridCell) :
    (b.writeBlock x y v).borderEn = b.borderEn := by rw [Block.writeBlock_eq]
@[simp] theorem Block.writeBlock_borderCol (b : Block) (x y : Nat) (v : GridCell) :
    (b.writeBlock x y v).borderCol = b.borderCol := by rw [Block.writeBlock_eq]
@[simp] theorem Block.writeBlock_flashOut (b : Block) (x y : Nat) (v : GridCell) :
    (b.writeBlock x y v).flashOut = b.flashOut := by rw [Block.writeBlock_eq]
@[simp] theorem Block.writeBlock_hasFlash (b : Block) (x y : Nat) (v : GridCell) :
    (b.writeBlock x y v).hasFlash = b.hasFlash := by rw [Block.writeBlock_eq]

theorem Block.writeBlock_sameRaw (b : Block) (x y : Nat) (v : GridCell) : SameRaw b (b.writeBlock x y v) := by
  rw [Block.writeBlock_eq]
  exact ⟨rfl, rfl, rfl, rfl⟩

/-- PUSH touches the raw buffers and their counters alone (R70). -/
theorem Block.receive_sameImage (b : Block) (v : Byte) : SameImage b (b.receive v) := by
  rcases b.receive_cases v with ⟨-, h⟩ | ⟨-, -, h⟩ | ⟨-, h⟩ <;> rw [h] <;> exact ⟨rfl, rfl, rfl, rfl, rfl, rfl, rfl⟩

/-- What a cell reads as depends on the grid and the registers of the image alone (R31, R80). -/
theorem Claim.SameImage.readCell_eq {b c : Block} (h : SameImage b c) (r k : Nat) : c.readCell r k = b.readCell r k := by
  obtain ⟨hgrid, hvalid, hscale, hben, hbcol, -, -⟩ := h
  have hin : c.inGrid r k = b.inGrid r k := by
    rw [Block.inGrid, Block.height, Block.width, hscale, hben]
    rfl
  have hfill : c.gridFill = b.gridFill := by
    simp only [Block.gridFill, hvalid, hbcol]
  rw [Block.readCell, hin, hfill, hgrid, Block.readCell]

theorem Writes.sameRaw {i : Instr} {b b' : Block} (h : Writes i b b') (hi : i.op ∉ [Op.push, .clear]) :
    SameRaw b b' := by
  cases h with
  | push | clear => simp [Instr.op] at hi
  | set => exact b.writeBlock_sameRaw _ _ _
  | nothing | decode | new | setflash => exact ⟨rfl, rfl, rfl, rfl⟩

theorem Writes.imageRegisters_eq {i : Instr} {b b' : Block} (h : Writes i b b')
    (hi : i.op ∉ [Op.new, .decode, .clear]) :
    b'.imgValid = b.imgValid ∧ b'.scale = b.scale ∧ b'.borderEn = b.borderEn ∧ b'.borderCol = b.borderCol ∧
      b'.hasFlash = b.hasFlash := by
  cases h with
  | decode | new | clear => simp [Instr.op] at hi
  | push v =>
    obtain ⟨-, hvalid, hscale, hben, hbcol, -, hflash⟩ := b.receive_sameImage v
    exact ⟨hvalid, hscale, hben, hbcol, hflash⟩
  | set => simp
  | nothing | setflash => exact ⟨rfl, rfl, rfl, rfl, rfl⟩

theorem Writes.readCell_eq {i : Instr} {b b' : Block} (h : Writes i b b')
    (hi : i.op ∉ [Op.new, .decode, .set, .clear]) (r c : Nat) : b'.readCell r c = b.readCell r c := by
  cases h with
  | decode | new | set | clear => simp [Instr.op] at hi
  | push v => exact (b.receive_sameImage v).readCell_eq r c
  | nothing | setflash => rfl

theorem Writes.flashOut_eq {i : Instr} {b b' : Block} (h : Writes i b b')
    (hi : i.op ∉ [Op.setflash, .new, .decode, .clear]) : b'.flashOut = b.flashOut := by
  cases h with
  | decode | new | setflash | clear => simp [Instr.op] at hi
  | push v =>
    obtain ⟨-, -, -, -, -, hflash, -⟩ := b.receive_sameImage v
    exact hflash
  | set => simp
  | nothing => rfl

/-- Settles O17: an error writes `ERR` alone, and a completed instruction has the frame of its write. -/
theorem stateIsWrittenOnlyByItsOperations : Obligations.StateIsWrittenOnlyByItsOperations := by
  intro i s t h
  rcases exec_writes h with hw | ⟨e, he⟩
  · exact ⟨hw.sameRaw, hw.imageRegisters_eq, hw.readCell_eq, hw.flashOut_eq⟩
  · rw [he]
    exact ⟨fun _ => ⟨rfl, rfl, rfl, rfl⟩, fun _ => ⟨rfl, rfl, rfl, rfl, rfl⟩, fun _ _ _ => rfl, fun _ => rfl⟩

/-! ### The full raw screen -/

/-- A byte pushed into full buffers is dropped (R70). -/
theorem Block.receive_of_full {b : Block} (hfull : b.rxCnt.toNat = 6912) (v : Byte) :
    b.receive v = b.noteOverflow := by
  rcases b.receive_cases v with ⟨hlt, -⟩ | ⟨-, hlt, -⟩ | ⟨-, h⟩
  · omega
  · omega
  · exact h

theorem Writes.fullRaw_eq {i : Instr} {b b' : Block} (h : Writes i b b') (hfull : b.rxCnt.toNat = 6912)
    (hi : i ≠ .clear) : b'.pix = b.pix ∧ b'.attr = b.attr ∧ b'.rxCnt = b.rxCnt := by
  cases h with
  | clear => exact absurd rfl hi
  | push v => simp [Block.receive_of_full hfull]
  | set =>
    obtain ⟨hpix, hattr, hcnt, -⟩ := b.writeBlock_sameRaw _ _ _
    exact ⟨hpix, hattr, hcnt⟩
  | nothing | decode | new | setflash => exact ⟨rfl, rfl, rfl⟩

/-- Settles O20: of the writes only PUSH and CLEAR touch the raw screen, and a PUSH into full buffers drops its
byte. -/
theorem rawScreenIsImmutableOnceFull : Obligations.RawScreenIsImmutableOnceFull := by
  intro i s t hfull hi h
  rcases exec_writes h with hw | ⟨e, he⟩
  · exact hw.fullRaw_eq hfull hi
  · rw [he]
    exact ⟨rfl, rfl, rfl⟩

/-! ### The canonical form of the memories -/

/-- The index PUSH stores at is legal in the buffer it stores into (R33, R70). -/
theorem Block.receive_memOk {b : Block} (h : b.MemOk) (v : Byte) : (b.receive v).MemOk := by
  rcases b.receive_cases v with ⟨hlt, he⟩ | ⟨hge, hlt, he⟩ | ⟨-, he⟩ <;> rw [he]
  · exact Block.storePix_memOk h hlt v
  · exact Block.storeAttr_memOk h (show b.rxCnt.toNat - 6144 < 768 by omega) v
  · exact h

theorem Writes.memOk {i : Instr} {b b' : Block} (hw : Writes i b b') (h : b.MemOk) : b'.MemOk := by
  cases hw with
  | nothing => exact h
  | push v => exact Block.receive_memOk h v
  | decode => exact Block.decodeScreen_memOk h _ _ _ _
  | new => exact Block.construct_memOk h _ _ _
  | set attr ink himg hxy => exact Block.writeBlock_memOk h himg hxy _
  | setflash => exact h
  | clear => exact State.reset_memOk

/-- Settles O25: every write of an instruction keeps the canonical form, and an error writes no memory. -/
theorem stepKeepsMemoriesCanonical : Obligations.StepKeepsMemoriesCanonical :=
  fun _ _ hs h => step_keeps (P := Block.MemOk) (fun _ _ hb => hb) (fun _ _ _ hw => hw.memOk) hs h

/-! ### The invariant of R20 -/

/-- R20, clause 4, is a claim about the scale alone: a live cell of an image always reads as something. -/
theorem Block.imageOk_of_scale {b : Block}
    (hscale : b.imgValid = true → 1 ≤ b.scale.toNat ∧ b.scale.toNat ≤ 4) : b.ImageOk := fun himg =>
  ⟨hscale himg, fun r hr c hc => Block.readCell_isSome himg ((b.inGrid_iff r c).mpr ⟨hr, hc⟩)⟩

theorem Block.Consistent.scale_bounds {b : Block} (h : b.Consistent) (himg : b.imgValid = true) :
    1 ≤ b.scale.toNat ∧ b.scale.toNat ≤ 4 := by
  obtain ⟨-, -, himage, -⟩ := h
  exact (himage himg).1

theorem Block.reset_consistent : Block.reset.Consistent := by
  refine ⟨⟨by decide, fun hovf => absurd hovf (by decide)⟩, fun _ => ⟨rfl, rfl, rfl, rfl, rfl⟩,
    fun himg => absurd himg (by decide), ?_, ?_⟩
  · intro i hi
    simp at hi
  · intro j hj
    simp at hj

/-- Clauses 1, 2 and 5 of R20 read the raw buffers and their counters alone. -/
theorem Claim.SameRaw.countOk_receivedOk {b c : Block} (h : SameRaw b c) (hcount : b.CountOk) (hrec : b.ReceivedOk) :
    c.CountOk ∧ c.ReceivedOk := by
  obtain ⟨hpix, hattr, hcnt, hovf⟩ := h
  simp only [Block.CountOk, Block.ReceivedOk, Block.readPix, Block.readAttr, hpix, hattr, hcnt, hovf] at *
  exact ⟨hcount, hrec⟩

/-- An operation that leaves the raw buffers alone and leaves an image of legal scale keeps R20. -/
theorem Block.Consistent.of_image {b c : Block} (h : b.Consistent) (hraw : SameRaw b c) (himg : c.imgValid = true)
    (hscale : 1 ≤ c.scale.toNat ∧ c.scale.toNat ≤ 4) : c.Consistent := by
  obtain ⟨hcount, -, -, hrec⟩ := h
  obtain ⟨hcount', hrec'⟩ := hraw.countOk_receivedOk hcount hrec
  exact ⟨hcount', fun hno => absurd himg (by simp [hno]), Block.imageOk_of_scale fun _ => hscale, hrec'⟩

theorem clampScale_bounds (sc : Int) : 1 ≤ clampScale sc ∧ clampScale sc ≤ 4 := by
  unfold clampScale
  split
  · omega
  · split <;> omega

/-- A scale of 1 to 4 fits the register (R26). -/
theorem scaleRegister_bounds {n : Nat} (h : 1 ≤ n ∧ n ≤ 4) :
    1 ≤ (BitVec.ofNat 3 n).toNat ∧ (BitVec.ofNat 3 n).toNat ≤ 4 := by
  rw [BitVec.toNat_ofNat]
  omega

/-- A PUSH that finds room counts one byte and notes no overflow (R70). -/
theorem Block.receive_count_of_lt {b : Block} (h : b.rxCnt.toNat < 6912) (v : Byte) :
    (b.receive v).rxCnt.toNat = b.rxCnt.toNat + 1 ∧ (b.receive v).rxOvf = b.rxOvf := by
  rcases b.receive_cases v with ⟨-, he⟩ | ⟨-, -, he⟩ | ⟨hfull, -⟩
  · rw [he]
    exact ⟨Block.countByte_toNat h, rfl⟩
  · rw [he]
    exact ⟨Block.countByte_toNat h, rfl⟩
  · omega

/-- Clauses 1 and 2 of R20 after a PUSH: the count stops at 6912, and only there is an overflow noted. -/
theorem Block.receive_countOk {b : Block} (h : b.CountOk) (v : Byte) : (b.receive v).CountOk := by
  obtain ⟨hle, hovf⟩ := h
  rcases Nat.lt_or_eq_of_le hle with hlt | hfull
  · obtain ⟨hcnt, hsame⟩ := Block.receive_count_of_lt hlt v
    rw [Block.CountOk, hcnt, hsame]
    exact ⟨hlt, fun ho => absurd (hovf ho) (by omega)⟩
  · rw [Block.receive_of_full hfull]
    exact ⟨hle, fun _ => hfull⟩

/-- Clause 5 of R20 after a PUSH: the byte counted is the byte stored. -/
theorem Block.receive_receivedOk {b : Block} (h : b.ReceivedOk) (v : Byte) : (b.receive v).ReceivedOk := by
  obtain ⟨hpix, hattr⟩ := h
  rcases b.receive_cases v with ⟨hlt, he⟩ | ⟨hge, hlt, he⟩ | ⟨hfull, he⟩ <;> rw [he]
  · have hcnt := Block.countByte_toNat (b := b) (by omega)
    simp only [Block.ReceivedOk, Block.countByte_rxCnt, Block.storePix_rxCnt, Block.readPix_countByte,
      Block.readAttr_countByte, Block.readAttr_storePix, Block.readPix_storePix, hcnt]
    refine ⟨fun i hi => ?_, fun j hj => by omega⟩
    split
    · rfl
    · exact hpix i (by omega)
  · have hcnt := Block.countByte_toNat hlt
    simp only [Block.ReceivedOk, Block.countByte_rxCnt, Block.storeAttr_rxCnt, Block.readPix_countByte,
      Block.readAttr_countByte, Block.readPix_storeAttr, Block.readAttr_storeAttr, hcnt]
    refine ⟨fun i hi => hpix i (by omega), fun j hj => ?_⟩
    split
    · rfl
    · rename_i hother
      have hne : b.rxCnt.toNat - 6144 ≠ j := fun heq => hother ⟨by omega, heq⟩
      exact hattr j (Nat.lt_of_le_of_ne (by omega) hne.symm)
  · exact ⟨hpix, hattr⟩

theorem Block.receive_consistent {b : Block} (h : b.Consistent) (v : Byte) : (b.receive v).Consistent := by
  have hbounds := h.scale_bounds
  obtain ⟨hcount, hno, -, hrec⟩ := h
  obtain ⟨-, hvalid, hscale, hben, hbcol, hfl, hhf⟩ := b.receive_sameImage v
  refine ⟨Block.receive_countOk hcount v, ?_, Block.imageOk_of_scale ?_, Block.receive_receivedOk hrec v⟩
  · simpa only [Block.NoImageOk, hvalid, hscale, hben, hbcol, hfl, hhf] using hno
  · rw [hvalid, hscale]
    exact hbounds

theorem Writes.consistent {i : Instr} {b b' : Block} (hw : Writes i b b') (h : b.Consistent) : b'.Consistent := by
  have hscale := h.scale_bounds
  cases hw with
  | nothing => exact h
  | push v => exact Block.receive_consistent h v
  | decode hsc => exact h.of_image ⟨rfl, rfl, rfl, rfl⟩ rfl (scaleRegister_bounds (by omega))
  | new sc => exact h.of_image ⟨rfl, rfl, rfl, rfl⟩ rfl (scaleRegister_bounds (clampScale_bounds sc))
  | set attr ink himg hxy =>
    exact h.of_image (b.writeBlock_sameRaw _ _ _) (by simpa using himg) (by simpa using hscale himg)
  | setflash en himg => exact h.of_image ⟨rfl, rfl, rfl, rfl⟩ himg (hscale himg)
  | clear => exact Block.reset_consistent

/-- Settles O23: every write of an instruction keeps R20, which does not speak of `ERR`. -/
theorem stepKeepsConsistency : Obligations.StepKeepsConsistency :=
  fun _ _ hs h => step_keeps (P := Block.Consistent) (fun _ _ hb => hb) (fun _ _ _ hw => hw.consistent) hs h

/-- Settles O22: at reset there is no image, no byte received and nothing listed in a memory. -/
theorem invariantsHoldAtReset : Obligations.InvariantsHoldAtReset :=
  ⟨Block.reset_consistent, State.reset_memOk, fun himg => absurd himg (by decide), .inl rfl⟩

/-! ### No stop where R20 holds -/

/-- Where R20 holds and 6912 bytes were received, every byte of the raw screen has a value (R20 "Consequence"). -/
theorem Block.Consistent.rawScreen_isSome {b : Block} (h : b.Consistent) (hexact : b.rawExact = true) :
    ∃ raw, b.rawScreen = some raw := by
  obtain ⟨-, -, -, hpix, hattr⟩ := h
  have hcnt : b.rxCnt.toNat = 6912 := by
    simp only [Block.rawExact, Bool.and_eq_true, decide_eq_true_eq] at hexact
    exact hexact.1
  exact Block.rawScreen_isSome (fun i hi => hpix i (by omega)) (fun j hj => hattr j (by omega))

theorem State.needImage_next (s t : State) : ∃ u, s.needImage (.next t) = .next u := by
  unfold State.needImage
  split <;> exact ⟨_, rfl⟩

/-- DECODE is the only instruction with a stop, and it stops only for a byte without a value (U9). -/
theorem exec_next_of_consistent {s : State} (h : s.blk.Consistent) (i : Instr) : ∃ t, exec i s = .next t := by
  cases i with
  | resolve | pal | push | stat | clear => exact ⟨_, rfl⟩
  | get | bounds | setflash | hasflash => exact s.needImage_next _
  | addr x y =>
    simp only [exec, execAddr]
    split <;> exact ⟨_, rfl⟩
  | new sc ben bcol =>
    simp only [exec, execNew]
    split <;> exact ⟨_, rfl⟩
  | set x y attr ink =>
    simp only [exec, execSet]
    split <;> exact s.needImage_next _
  | decode sc ben bcol =>
    rcases execDecode_cases sc ben bcol s with ⟨-, he⟩ | ⟨-, -, he⟩ | ⟨-, hexact, hnone, -⟩ | ⟨-, -, raw, -, he⟩
    · exact ⟨_, he⟩
    · exact ⟨_, he⟩
    · obtain ⟨raw, hraw⟩ := h.rawScreen_isSome hexact
      exact absurd hraw (by simp [hnone])
    · exact ⟨_, he⟩

theorem step_of_illegal {s : State} {w : Word} {rest : List Word} {e : Illegal} (hc : s.commands = w :: rest)
    (hd : decodeWord w = .error e) :
    step s = .next (({ s with commands := rest } : State).raise .illegalCommand 0) := by
  simp only [step, State.takeCommand, hc, hd, execIllegal]

/-- Settles O24: a step idles, raises `IllegalCommand` or executes an instruction, and none stops. -/
theorem consistentStatesNeverStop : Obligations.ConsistentStatesNeverStop := by
  intro s h
  cases hc : s.commands with
  | nil => exact ⟨s, step_of_no_command hc⟩
  | cons w rest =>
    cases hd : decodeWord w with
    | ok i =>
      rw [step_of_decodes hc hd]
      exact exec_next_of_consistent (s := { s with commands := rest }) h i
    | error e => exact ⟨_, step_of_illegal hc hd⟩

end Sys2Proof.Machine
end

section
/-!
PROOFS. The border region of an image (R39, R82): what a new image and a decoded one hold there, and that no
operation writes into it.
-/

namespace Sys2Proof.Machine

open Claim

/-- A new image holds the border cell everywhere, so in its border too (R83). -/
theorem Block.construct_borderOk (b : Block) (s : Nat) (ben : Bool) (bc : BitVec 4) :
    (b.construct s ben bc).BorderOk := by
  intro _ r c hr hc _
  simp only [Block.height, Block.width, Block.construct_scale, Block.construct_borderEn, BitVec.toNat_ofNat] at hr hc
  rw [Block.readCell_construct, if_pos ⟨hr, hc⟩, Block.construct_borderCol]

/-- DECODE writes the scaled screen and leaves its border as the new image has it (R71, R77). -/
theorem Block.decodeScreen_borderOk (b : Block) (s : Nat) (ben : Bool) (bc : BitVec 4) (raw : RawScreen) :
    (b.decodeScreen s ben bc raw).BorderOk := by
  intro _ r c hr hc hborder
  simp only [Block.height, Block.width, Block.OnScaledScreen, Block.bh, Block.bw, Block.decodeScreen_scale,
    Block.decodeScreen_borderEn, BitVec.toNat_ofNat] at hr hc hborder
  rw [Block.readCell_decodeScreen, if_pos ⟨hr, hc⟩, if_neg hborder, Block.decodeScreen_borderCol]

/-- The block of a logical pixel lies in the scaled screen, so SET writes no border cell (R84, R85). -/
theorem Block.writeBlock_borderOk {b : Block} (h : b.BorderOk) {x y : Nat} (hxy : onScreen x y = true)
    (v : GridCell) : (b.writeBlock x y v).BorderOk := by
  intro himg r c hr hc hborder
  simp only [Block.height, Block.width, Block.OnScaledScreen, Block.bh, Block.bw, Block.writeBlock_scale,
    Block.writeBlock_borderEn, Block.writeBlock_imgValid] at himg hr hc hborder
  have houtside : (r, c) ∉ b.blockCells x y := fun hmem => hborder (b.blockCells_inside hxy hmem)
  rw [Block.readCell_writeBlock b v hxy, if_neg houtside, Block.writeBlock_borderCol]
  exact h himg r c hr hc hborder

/-- The border invariant reads the image alone. -/
theorem Claim.SameImage.borderOk {b c : Block} (hsame : SameImage b c) (h : b.BorderOk) : c.BorderOk := by
  have hread := hsame.readCell_eq
  obtain ⟨-, hvalid, hscale, hben, hbcol, -, -⟩ := hsame
  simp only [Block.BorderOk, Block.height, Block.width, Block.OnScaledScreen, Block.bh, Block.bw, hread, hvalid,
    hscale, hben, hbcol] at h ⊢
  exact h

theorem Writes.borderOk {i : Instr} {b b' : Block} (hw : Writes i b b') (h : b.BorderOk) : b'.BorderOk := by
  cases hw with
  | nothing => exact h
  | push v => exact (b.receive_sameImage v).borderOk h
  | decode => exact Block.decodeScreen_borderOk _ _ _ _ _
  | new => exact Block.construct_borderOk _ _ _ _
  | set attr ink himg hxy => exact Block.writeBlock_borderOk h hxy _
  | setflash => exact h
  | clear => exact fun himg => absurd himg (by decide)

/-- Settles O26: every write of an instruction keeps the border region, and an error writes no cell. -/
theorem stepKeepsTheBorder : Obligations.StepKeepsTheBorder :=
  fun _ _ hs h => step_keeps (P := Block.BorderOk) (fun _ _ hb => hb) (fun _ _ _ hw => hw.borderOk) hs h

end Sys2Proof.Machine
end

section
/-!
PROOFS. What an instruction answers and leaves depends on the block alone, and from it that a read can be repeated
(R37).
-/

namespace Sys2Proof.Machine

open Claim

/-- Machines that hold the same block get the same response and the same next block from an instruction, whatever
the host has presented and been answered (R16). -/
theorem exec_of_blk_eq {i : Instr} {s t u : State} (hblk : u.blk = s.blk) :
    exec i s = .next t →
      ∃ r, t.responses = s.responses ++ [r] ∧ exec i u = .next ((u.withBlk t.blk).answer r.err r.data) := by
  obtain ⟨b, cs, rs⟩ := s
  obtain ⟨_, cs', rs'⟩ := u
  cases hblk
  cases i with
  | resolve | pal | push | stat | clear => rintro ⟨⟩; exact ⟨_, rfl, rfl⟩
  | addr x y =>
    simp only [exec, execAddr]
    split <;> rintro ⟨⟩ <;> exact ⟨_, rfl, rfl⟩
  | new sc ben bcol =>
    simp only [exec, execNew]
    split <;> rintro ⟨⟩ <;> exact ⟨_, rfl, rfl⟩
  | decode sc ben bcol =>
    simp only [exec, execDecode]
    split
    · rintro ⟨⟩; exact ⟨_, rfl, rfl⟩
    · split
      · rintro ⟨⟩; exact ⟨_, rfl, rfl⟩
      · split <;> rintro ⟨⟩; exact ⟨_, rfl, rfl⟩
  | set x y attr ink =>
    simp only [exec, execSet, State.needImage]
    split
    · split <;> rintro ⟨⟩ <;> exact ⟨_, rfl, rfl⟩
    · rintro ⟨⟩; exact ⟨_, rfl, rfl⟩
  | get | bounds | setflash | hasflash =>
    simp only [exec, execGet, execBounds, execSetflash, execHasflash, State.needImage]
    split <;> rintro ⟨⟩ <;> exact ⟨_, rfl, rfl⟩

theorem errorCode_ne_zero (e : Error) : errorCode e ≠ 0 := by
  cases e <;> decide

theorem Claim.Answers.response_eq {s t : State} {e : BitVec 4} {d : Word} {r : Response} (h : Answers s t e d)
    (hr : t.responses = s.responses ++ [r]) : r = ⟨e, d⟩ := by
  obtain ⟨-, hresp⟩ := h
  simpa using hr.symm.trans hresp

/-- An instruction that answers code 0 has completed (R91). -/
theorem Claim.Answers.completes {i : Instr} {s t : State} {d : Word} (ha : Answers s t 0 d)
    (h : exec i s = .next t) : Completes i s.blk t.blk := by
  rcases exec_cases h with ⟨b', d', hdone, rfl⟩ | ⟨e, d', -, rfl⟩
  · exact hdone
  · exact absurd (congrArg Response.err (ha.response_eq rfl)) (errorCode_ne_zero e)

/-- A completed read has written nothing (R37). -/
theorem Completes.eq_of_read {i : Instr} {b b' : Block} (h : Completes i b b')
    (hi : i.op ∈ [Op.get, .resolve, .pal, .addr, .bounds, .hasflash, .stat]) : b' = b := by
  cases i with
  | get | bounds | hasflash => exact h.2
  | resolve | pal | addr | stat => exact h
  | push | decode | new | set | setflash | clear => simp [Instr.op] at hi

/-- Settles O18: a read leaves the block as it was, and the block alone decides what it answers. -/
theorem readsChangeNothingAndRepeat : Obligations.ReadsChangeNothingAndRepeat := by
  intro i s t d hi h ha
  have hblk : t.blk = s.blk := (ha.completes h).eq_of_read hi
  obtain ⟨r, hr, hagain⟩ := exec_of_blk_eq hblk h
  cases ha.response_eq hr
  exact ⟨hblk, _, hagain, rfl, rfl⟩

end Sys2Proof.Machine
end

section
/-!
PROOFS. A stream of pushed bytes lies in the two raw buffers in stream order (R33, R70). The two buffers are read here
as the one stream they hold.
-/

namespace Sys2Proof.Machine

open Claim

/-- The byte at stream offset `k`: `PIX[k]` below 6144, `ATTR[k - 6144]` from there on (R33). -/
def Block.streamByte (b : Block) (k : Nat) : Option Byte := if k < 6144 then b.readPix k else b.readAttr (k - 6144)

theorem Block.streamByte_of_pix (b : Block) {i : Nat} (hi : i < 6144) : b.streamByte i = b.readPix i :=
  if_pos hi

theorem Block.streamByte_of_attr (b : Block) (j : Nat) : b.streamByte (j + 6144) = b.readAttr j := by
  rw [Block.streamByte, if_neg (by omega), Nat.add_sub_cancel]

/-! ### One byte -/

/-- A PUSH that finds room stores its byte at the stream offset that the count names, and no other (R70). -/
theorem Block.streamByte_receive {b : Block} (hroom : b.rxCnt.toNat < 6912) (v : Byte) {k : Nat} (hk : k < 6912) :
    (b.receive v).streamByte k = if k = b.rxCnt.toNat then some v else b.streamByte k := by
  unfold Block.streamByte
  rcases b.receive_cases v with ⟨hpix, he⟩ | ⟨hattr, -, he⟩ | ⟨hfull, -⟩
  · rw [he]
    split
    · rename_i hk'
      simp [Block.readPix_storePix, hk', eq_comm]
    · simp [show k ≠ b.rxCnt.toNat by omega]
  · rw [he]
    split
    · simp [show k ≠ b.rxCnt.toNat by omega]
    · rename_i hk'
      have hoffset : k - 6144 < 768 ∧ b.rxCnt.toNat - 6144 = k - 6144 ↔ k = b.rxCnt.toNat := by omega
      simp only [Block.readAttr_countByte, Block.readAttr_storeAttr, hoffset]
  · omega

theorem Block.receive_err (b : Block) (v : Byte) : (b.receive v).err = b.err := by
  rcases b.receive_cases v with ⟨-, h⟩ | ⟨-, -, h⟩ | ⟨-, h⟩ <;> rw [h] <;> rfl

/-! ### A list of bytes -/

/-- Pushing a list of bytes always completes, and the block receives them one after another. -/
theorem pushAll_eq_some (bytes : List Byte) (s : State) :
    ∃ t, pushAll bytes s = some t ∧ t.blk = bytes.foldl Block.receive s.blk := by
  induction bytes generalizing s with
  | nil => exact ⟨s, rfl, rfl⟩
  | cons v vs ih => exact ih ((s.withBlk (s.blk.receive v)).respond 0)

theorem Block.foldl_receive_err (bytes : List Byte) (b : Block) : (bytes.foldl Block.receive b).err = b.err := by
  induction bytes generalizing b with
  | nil => rfl
  | cons v vs ih => rw [List.foldl_cons, ih, Block.receive_err]

theorem Claim.SameImage.trans {b c d : Block} (hbc : SameImage b c) (hcd : SameImage c d) : SameImage b d := by
  obtain ⟨hgrid, hvalid, hscale, hben, hbcol, hfl, hhf⟩ := hbc
  obtain ⟨hgrid', hvalid', hscale', hben', hbcol', hfl', hhf'⟩ := hcd
  exact ⟨hgrid'.trans hgrid, hvalid'.trans hvalid, hscale'.trans hscale, hben'.trans hben, hbcol'.trans hbcol,
    hfl'.trans hfl, hhf'.trans hhf⟩

theorem Block.foldl_receive_sameImage (bytes : List Byte) (b : Block) :
    SameImage b (bytes.foldl Block.receive b) := by
  induction bytes generalizing b with
  | nil => exact ⟨rfl, rfl, rfl, rfl, rfl, rfl, rfl⟩
  | cons v vs ih => exact (b.receive_sameImage v).trans (ih (b.receive v))

/-- Bytes that find room are all counted, and none of them notes an overflow. -/
theorem Block.foldl_receive_count (bytes : List Byte) (b : Block) (hroom : b.rxCnt.toNat + bytes.length ≤ 6912) :
    (bytes.foldl Block.receive b).rxCnt.toNat = b.rxCnt.toNat + bytes.length ∧
      (bytes.foldl Block.receive b).rxOvf = b.rxOvf := by
  induction bytes generalizing b with
  | nil => exact ⟨rfl, rfl⟩
  | cons v vs ih =>
    rw [List.length_cons] at hroom
    obtain ⟨hcnt, hovf⟩ := Block.receive_count_of_lt (b := b) (by omega) v
    obtain ⟨hcnt', hovf'⟩ := ih (b.receive v) (by omega)
    rw [List.foldl_cons, List.length_cons]
    exact ⟨by omega, hovf'.trans hovf⟩

/-- Bytes that find room lie from the old count on, in order, and every other offset keeps its byte. -/
theorem Block.streamByte_foldl_receive (bytes : List Byte) (b : Block)
    (hroom : b.rxCnt.toNat + bytes.length ≤ 6912) {k : Nat} (hk : k < 6912) :
    (bytes.foldl Block.receive b).streamByte k =
      if b.rxCnt.toNat ≤ k ∧ k < b.rxCnt.toNat + bytes.length then bytes[k - b.rxCnt.toNat]?
      else b.streamByte k := by
  induction bytes generalizing b with
  | nil => rw [if_neg (by rw [List.length_nil]; omega), List.foldl_nil]
  | cons v vs ih =>
    rw [List.length_cons] at hroom
    have hlt : b.rxCnt.toNat < 6912 := by omega
    obtain ⟨hcnt, -⟩ := Block.receive_count_of_lt hlt v
    rw [List.foldl_cons, ih (b.receive v) (by omega), hcnt, Block.streamByte_receive hlt v hk, List.length_cons]
    rcases Nat.lt_trichotomy k b.rxCnt.toNat with hbefore | rfl | hafter
    · rw [if_neg (by omega), if_neg (by omega), if_neg (by omega)]
    · simp
    · have hsub : k - b.rxCnt.toNat = k - (b.rxCnt.toNat + 1) + 1 := by omega
      rw [hsub, List.getElem?_cons_succ, if_neg (show ¬ k = b.rxCnt.toNat by omega)]
      congr 1
      exact propext (by omega)

/-- Settles O34: from an empty buffer a byte's offset in the list is its stream offset. -/
theorem pushedStreamFillsTheBuffers : Obligations.PushedStreamFillsTheBuffers := by
  intro s bytes hempty hlen
  have hzero : s.blk.rxCnt.toNat = 0 := by rw [hempty]; rfl
  obtain ⟨t, hpush, hblk⟩ := pushAll_eq_some bytes s
  obtain ⟨hcnt, hovf⟩ := Block.foldl_receive_count bytes s.blk (by omega)
  have hstream : ∀ k, k < 6912 →
      t.blk.streamByte k = if k < bytes.length then bytes[k]? else s.blk.streamByte k := by
    intro k hk
    rw [hblk, Block.streamByte_foldl_receive bytes s.blk (by omega) hk]
    simp [hzero]
  rw [← hblk] at hcnt hovf
  refine ⟨t, hpush, by omega, hovf, hblk ▸ Block.foldl_receive_sameImage bytes s.blk,
    hblk ▸ Block.foldl_receive_err bytes s.blk, fun i hi => ?_, fun j hj => ?_⟩
  · simpa only [Block.streamByte_of_pix _ hi] using hstream i (by omega)
  · simpa only [Block.streamByte_of_attr] using hstream (j + 6144) (by omega)

end Sys2Proof.Machine
end

section
/-!
PROOFS. The colour of a cell against the spec's palette and closed form (R58, R60), and a GET of a cell that SET wrote
(R41, R85, R86).
-/

namespace Sys2Proof.Machine

open Claim

/-! ### Colours -/

theorem palette_eq_specEntry {i : Nat} (hi : i < 16) : palette i = specEntry i := by
  revert i
  decide

theorem specIndex_lt (attr : Nat) (ink fl : Bool) : specIndex attr ink fl < 16 := by
  simp only [specIndex]
  split <;> omega

/-- The four steps of `resolve` select the palette index of the closed form (R59, R60). -/
theorem resolveIndex_eq_specIndex (attr : Byte) (ink fl : Bool) :
    resolveIndex attr ink fl = specIndex attr.toNat ink fl := by
  have hi : attrInk attr = attr.toNat % 8 := by simp [attrInk, BitVec.extractLsb'_toNat]
  have hp : attrPaper attr = attr.toNat / 8 % 8 := by
    simp [attrPaper, BitVec.extractLsb'_toNat, Nat.shiftRight_eq_div_pow]
  have hb : attrBright attr = decide (attr.toNat / 64 % 2 = 1) := Nat.testBit_eq_decide_div_mod_eq
  have hf : attrFlash attr = decide (attr.toNat / 128 % 2 = 1) := Nat.testBit_eq_decide_div_mod_eq
  simp only [resolveIndex, specIndex, hi, hp, hb, hf]
  generalize (fl && decide (attr.toNat / 128 % 2 = 1)) = swap
  rcases Nat.mod_two_eq_zero_or_one (attr.toNat / 64) with hbright | hbright
  · cases ink <;> cases swap <;> simp [hbright]
  · cases ink <;> cases swap <;> simp [hbright, Nat.add_comm]

/-- `resolve` answers the colour of the spec (R58 to R60). -/
theorem resolve_eq_specColour (attr : Byte) (ink fl : Bool) :
    resolve attr ink fl = specColour attr.toNat ink fl := by
  rw [resolve, resolveIndex_eq_specIndex, palette_eq_specEntry (specIndex_lt _ _ _), specColour]

theorem cellAttr_mkCell (ink : Bool) (attr : Byte) : cellAttr (mkCell ink attr) = attr := by
  rw [cellAttr, mkCell, BitVec.extractLsb'_append_eq_of_add_le (by decide), BitVec.extractLsb'_eq_self]

theorem cellInk_mkCell (ink : Bool) (attr : Byte) : cellInk (mkCell ink attr) = ink := by
  rw [cellInk, mkCell, BitVec.getLsbD_append]
  simp

/-- Inside the grid GET answers the colour of the cell (R86). -/
theorem Block.colourAt_of_readCell {b : Block} {r c : Nat} {v : GridCell} (h : b.readCell r c = some v) :
    b.colourAt c r = resolve (cellAttr v) (cellInk v) b.flashOut := by
  have hsign : ¬ ((c : Int) < 0 ∨ (r : Int) < 0) := by omega
  rw [Block.colourAt, if_neg hsign]
  simp only [Int.toNat_natCast, h]

/-! ### SET and GET -/

/-- The border of R80, in the spec's form. -/
theorem specBH_eq_borderH (s : Nat) (ben : Bool) : specBH s ben = borderH s ben := by
  unfold specBH borderH
  split <;> omega

theorem specBW_eq_borderW (s : Nat) (ben : Bool) : specBW s ben = borderW s ben := by
  unfold specBW borderW
  split <;> omega

/-- The cells that `write_block` lists are those of the spec's block (R84). -/
theorem Block.mem_blockCells_iff_inBlock (b : Block) (x y r c : Nat) :
    (r, c) ∈ b.blockCells x y ↔ InBlock b x y r c := by
  rw [Block.mem_blockCells, InBlock, specBH_eq_borderH, specBW_eq_borderW, Block.bh, Block.bw]

theorem exec_set_next {s : State} (himg : s.blk.imgValid = true) {x y : Nat} (hxy : onScreen x y = true)
    (attr : Byte) (ink : Bool) :
    exec (.set x y attr ink) s = .next ((s.withBlk (s.blk.writeBlock x y (mkCell ink attr))).respond 0) := by
  simp only [exec, execSet, State.needImage_pos himg, if_pos hxy]

theorem exec_get_next {s : State} (himg : s.blk.imgValid = true) (x y : Int) :
    exec (.get x y) s = .next (s.respond (s.blk.colourAt x y)) :=
  State.needImage_pos himg _

/-- Settles O45: the block write puts the cell where GET reads it, and leaves the flash switch. -/
theorem getAfterSetShowsTheColour : Obligations.GetAfterSetShowsTheColour := by
  intro s t x y r c attr ink himg hx hy hblock h
  have hxy : onScreen x y = true := (onScreen_iff x y).mpr ⟨hx, hy⟩
  cases (exec_set_next himg hxy attr ink).symm.trans h
  have hread : (s.blk.writeBlock x y (mkCell ink attr)).readCell r c = some (mkCell ink attr) := by
    rw [Block.readCell_writeBlock _ _ hxy, if_pos ((s.blk.mem_blockCells_iff_inBlock x y r c).mpr hblock)]
  have hcolour : (s.blk.writeBlock x y (mkCell ink attr)).colourAt c r =
      specColour attr.toNat ink s.blk.flashOut := by
    rw [Block.colourAt_of_readCell hread, cellAttr_mkCell, cellInk_mkCell, Block.writeBlock_flashOut,
      resolve_eq_specColour]
  refine ⟨_, exec_get_next ((s.blk.writeBlock_imgValid x y _).trans himg) c r, rfl, ?_⟩
  simp [hcolour]

end Sys2Proof.Machine
end

section
/-!
PROOFS. The other direction of the encoding's round trip (R46 to R50): encoding the operands read from a word gives the
operation's fixed bits and the word's own operand bits, so a word that passes its row's test is encoded to itself.
-/

namespace Sys2Proof

/-! ### A field read from a word, as a number -/

theorem extractLsb'_toNat_eq_div_mod (w : Word) (lo len : Nat) :
    (w.extractLsb' lo len).toNat = w.toNat / 2 ^ lo % 2 ^ len := by
  rw [BitVec.extractLsb'_toNat, Nat.shiftRight_eq_div_pow]

theorem fieldU_eq_div_mod (w : Word) (lo len : Nat) : fieldU w lo len = w.toNat / 2 ^ lo % 2 ^ len :=
  extractLsb'_toNat_eq_div_mod w lo len

theorem fieldU_lt (w : Word) (lo len : Nat) : fieldU w lo len < 2 ^ len :=
  (w.extractLsb' lo len).isLt

/-- A signed field reads as a number whose low bits are the field (R13, R48). -/
theorem ofInt_fieldS_toNat (w : Word) (lo len : Nat) :
    (BitVec.ofInt len (fieldS w lo len)).toNat = w.toNat / 2 ^ lo % 2 ^ len := by
  rw [fieldS, BitVec.ofInt_toInt, extractLsb'_toNat_eq_div_mod]

/-- A signed field reads as a number in its two's-complement range (R13). -/
theorem fieldS_mem_range (w : Word) (lo len : Nat) :
    -2 ^ (len - 1) ≤ fieldS w lo len ∧ fieldS w lo len < 2 ^ (len - 1) :=
  ⟨BitVec.le_toInt _, BitVec.toInt_lt⟩

theorem flag_getLsbD_eq_div_mod (w : Word) (k : Nat) :
    (if w.getLsbD k then 1 else 0) = w.toNat / 2 ^ k % 2 := by
  rw [← Nat.toNat_testBit, Bool.toNat, Bool.cond_eq_ite]
  rfl

/-! ### Encoding what was read -/

/-- Every operand read from a word fits its field (R48). -/
theorem readOperands_wellFormed (op : Op) (w : Word) : (readOperands op w).wellFormed = true := by
  have hbyte (lo : Nat) : fieldU w lo 8 < 256 := fieldU_lt w lo 8
  have hscale : -128 ≤ fieldS w 0 8 ∧ fieldS w 0 8 ≤ 127 :=
    (fieldS_mem_range w 0 8).imp_right Int.le_of_lt_add_one
  have hcoord (lo : Nat) : -8192 ≤ fieldS w lo 14 ∧ fieldS w lo 14 ≤ 8191 :=
    (fieldS_mem_range w lo 14).imp_right Int.le_of_lt_add_one
  cases op with
  | pal => exact decide_eq_true (fieldU_lt w 0 4)
  | addr | set => simp [readOperands, Instr.wellFormed, hbyte]
  | decode | new => simp [readOperands, Instr.wellFormed, hscale, hbyte]
  | get => simp [readOperands, Instr.wellFormed, hcoord]
  | resolve | push | bounds | setflash | hasflash | stat | clear => rfl

/-- Encoding the operands read from any word gives the operation's fixed bits and below them the word's own bits: the
formats' fields tile the operand bits, and none is dropped (R47, R49). -/
theorem encode_readOperands_toNat (op : Op) (w : Word) :
    (encode (readOperands op w)).toNat =
      op.fixedValue * 2 ^ op.lowestFixed + w.toNat % 2 ^ op.lowestFixed := by
  cases op with
  | resolve =>
    simp only [readOperands, encode_resolve_toNat, flag_getLsbD_eq_div_mod, extractLsb'_toNat_eq_div_mod,
      Op.fixedValue, Op.lowestFixed]
    omega
  | pal =>
    simp only [readOperands, encode_pal_toNat, fieldU_eq_div_mod, Op.fixedValue, Op.lowestFixed]
    omega
  | addr =>
    simp only [readOperands, encode_addr_toNat, fieldU_eq_div_mod, Op.fixedValue, Op.lowestFixed]
    omega
  | push =>
    simp only [readOperands, encode_push_toNat, extractLsb'_toNat_eq_div_mod, Op.fixedValue, Op.lowestFixed]
    omega
  | decode =>
    simp only [readOperands, encode_decode_toNat, flag_getLsbD_eq_div_mod, fieldU_eq_div_mod, ofInt_fieldS_toNat,
      Op.fixedValue, Op.lowestFixed]
    omega
  | new =>
    simp only [readOperands, encode_new_toNat, flag_getLsbD_eq_div_mod, fieldU_eq_div_mod, ofInt_fieldS_toNat,
      Op.fixedValue, Op.lowestFixed]
    omega
  | set =>
    simp only [readOperands, encode_set_toNat, flag_getLsbD_eq_div_mod, extractLsb'_toNat_eq_div_mod,
      fieldU_eq_div_mod, Op.fixedValue, Op.lowestFixed]
    omega
  | get =>
    simp only [readOperands, encode_get_toNat, ofInt_fieldS_toNat, Op.fixedValue, Op.lowestFixed]
    omega
  | setflash =>
    simp only [readOperands, encode_setflash_toNat, flag_getLsbD_eq_div_mod, Op.fixedValue, Op.lowestFixed]
    omega
  | bounds | hasflash | stat | clear =>
    simp only [Op.lowestFixed, pow_zero, Nat.mod_one]
    rfl

/-- A word that passes an operation's row test is the word of the operands read from it (R50). -/
theorem encode_readOperands {op : Op} {w : Word} (h : w &&& op.row.mask = op.row.pattern) :
    encode (readOperands op w) = w := by
  rw [← BitVec.toNat_inj, encode_readOperands_toNat, ← (op.row_test_iff w).mp h, Nat.div_add_mod']

/-- A word decodes to some instruction of an operation exactly when it passes the operation's row test (R49, R50). -/
theorem exists_decodeWord_op_iff (op : Op) (w : Word) :
    (∃ i, decodeWord w = .ok i ∧ i.op = op) ↔ w &&& op.row.mask = op.row.pattern := by
  constructor
  · rintro ⟨i, hd, rfl⟩
    obtain ⟨op, htest, rfl⟩ := (decodeWord_ok_iff w i).mp hd
    rwa [readOperands_op]
  · intro htest
    exact ⟨_, (decodeWord_ok_iff w _).mpr ⟨op, htest, rfl⟩, readOperands_op op w⟩

/-- The spec's rows are the model's opcode table (R49). -/
theorem specRows_eq_opcodeTable_map :
    Machine.Claim.specRows = opcodeTable.map fun r => (r.op, r.pattern, r.mask) := rfl

/-! ### The obligations -/

/-- Settles O2: the word passes the row test of its operation, and each field reads back as its operand. -/
theorem decodeOfEncodeIsTheInstruction : Obligations.DecodeOfEncodeIsTheInstruction :=
  fun _ hwf => decodeWord_encode hwf

/-- Settles O3: what is read from a word that passes a row test fits the fields and encodes to that word. -/
theorem encodeOfDecodeIsTheWord : Obligations.EncodeOfDecodeIsTheWord := by
  intro w i hd
  obtain ⟨op, htest, rfl⟩ := (decodeWord_ok_iff w i).mp hd
  exact ⟨readOperands_wellFormed op w, encode_readOperands htest⟩

/-- Settles O4: the spec's rows are the decoder's table, and the decoder goes by the row test. -/
theorem wordIsOperationExactlyWhenMasked : Obligations.WordIsOperationExactlyWhenMasked := by
  intro row hrow w
  rw [specRows_eq_opcodeTable_map] at hrow
  obtain ⟨r, hr, rfl⟩ := List.mem_map.mp hrow
  obtain ⟨op, rfl⟩ := mem_opcodeTable hr
  rw [Op.row_op]
  exact exists_decodeWord_op_iff op w

/-- Settles O1: the decoder evaluated on each of the thirteen words. -/
theorem decodeOfWrittenOutWords : Obligations.DecodeOfWrittenOutWords := by
  unfold Obligations.DecodeOfWrittenOutWords
  decide

end Sys2Proof
end

section
/-!
PROOFS. What the colour resolver answers (R59 to R61), and that every colour the block answers, GET's among them, comes
from the spec's palette (R58).
-/

namespace Sys2Proof.Machine

open Claim

/-! ### The palette as a set of colours -/

theorem specEntry_mem_specPalette {i : Nat} (hi : i < 16) : specEntry i ∈ specPalette := by
  have hlen : i < specPalette.length := hi
  rw [specEntry, List.getD_eq_getElem _ _ hlen]
  exact List.getElem_mem hlen

theorem alpha_of_mem_specPalette : ∀ d ∈ specPalette, d.toNat % 256 = 0xFF := by
  simp [specPalette]

theorem palette_mem_specPalette {i : Nat} (hi : i < 16) : palette i ∈ specPalette :=
  palette_eq_specEntry hi ▸ specEntry_mem_specPalette hi

theorem resolve_mem_specPalette (attr : Byte) (ink fl : Bool) : resolve attr ink fl ∈ specPalette :=
  resolve_eq_specColour attr ink fl ▸ specEntry_mem_specPalette (specIndex_lt _ _ _)

/-- GET's colour is a palette entry on and off the grid, in any state (R86). -/
theorem Block.colourAt_mem_specPalette (b : Block) (c r : Int) : b.colourAt c r ∈ specPalette := by
  have hborder : palette b.borderCol.toNat ∈ specPalette := palette_mem_specPalette b.borderCol.isLt
  rw [Block.colourAt]
  split
  · exact hborder
  · split
    · exact hborder
    · exact resolve_mem_specPalette _ _ _

/-! ### Answers -/

theorem exec_resolve_next (s : State) (attr : Byte) (ink fl : Bool) :
    exec (.resolve attr ink fl) s = .next (s.respond (resolve attr ink fl)) := rfl

theorem exec_pal_next (s : State) (idx : Nat) : exec (.pal idx) s = .next (s.respond (palette idx)) := rfl

theorem State.answers_respond (s : State) (d : Word) : Answers s (s.respond d) 0 d := ⟨rfl, rfl⟩

theorem Claim.Answers.eq_of_respond {s : State} {c d : Word} (ha : Answers s (s.respond c) 0 d) : c = d :=
  congrArg Response.data (ha.response_eq rfl)

/-- A colour operation that completes responds with a palette entry (R58, R60, R61, R86). -/
theorem colourOperation_responds {i : Instr} {s t : State} (hwf : i.wellFormed = true)
    (hi : i.op ∈ [Op.resolve, .pal, .get]) (h : exec i s = .next t) (hdone : Completes i s.blk t.blk) :
    ∃ c ∈ specPalette, t = s.respond c := by
  cases i with
  | resolve attr ink fl =>
    cases (exec_resolve_next s attr ink fl).symm.trans h
    exact ⟨_, resolve_mem_specPalette attr ink fl, rfl⟩
  | pal idx =>
    have hidx : idx < 16 := of_decide_eq_true hwf
    cases (exec_pal_next s idx).symm.trans h
    exact ⟨_, palette_mem_specPalette hidx, rfl⟩
  | get x y =>
    obtain ⟨himg, -⟩ := hdone
    cases (exec_get_next himg x y).symm.trans h
    exact ⟨_, s.blk.colourAt_mem_specPalette x y, rfl⟩
  | addr | push | decode | new | set | bounds | setflash | hasflash | stat | clear => simp [Instr.op] at hi

/-! ### The obligations -/

/-- Settles O27: RESOLVE responds with `resolve`, which is the closed form's colour for every operand. -/
theorem resolveAnswersTheSelectedColour : Obligations.ResolveAnswersTheSelectedColour := by
  intro s attr ink fl
  rw [← resolve_eq_specColour]
  exact ⟨_, exec_resolve_next s attr ink fl, s.answers_respond _, s.respond_blk _⟩

/-- Settles O28: PAL responds with the model's palette, which is the spec's table below 16. -/
theorem palAnswersTheEntry : Obligations.PalAnswersTheEntry := by
  intro s idx hidx
  rw [← palette_eq_specEntry hidx]
  exact ⟨_, exec_pal_next s idx, s.answers_respond _, s.respond_blk _⟩

/-- Settles O29: an answer of code 0 is a completion, and all three operations complete with a palette entry. -/
theorem coloursAreOpaquePaletteEntries : Obligations.ColoursAreOpaquePaletteEntries := by
  intro i s t d hwf hi h ha
  obtain ⟨c, hc, rfl⟩ := colourOperation_responds hwf hi h (ha.completes h)
  cases ha.eq_of_respond
  exact ⟨hc, alpha_of_mem_specPalette d hc⟩

end Sys2Proof.Machine
end

section
/-!
PROOFS. The address map (R63 to R69): the row map exchanges the line and the character row inside a third, so it is its
own inverse; the pixel and attribute indices are mixed-radix numbers whose digits give the coordinate back; and ADDR
answers the indices packed in one word (R53).
-/

namespace Sys2Proof.Machine

open Claim

/-! ### The row map -/

theorem specRow_eq_storageRow (y : Nat) : specRow y = storageRow y := rfl

/-- Row `8 * c + l` of third `t` is stored as row `8 * l + c` of that third (R63). -/
theorem storageRow_of_digits (t : Nat) {c l : Nat} (hc : c < 8) (hl : l < 8) :
    storageRow (64 * t + 8 * c + l) = 64 * t + 8 * l + c := by
  unfold storageRow
  omega

/-- Every row has a third, a character row in it and a line in that. -/
theorem exists_row_digits (y : Nat) : ∃ t c l, c < 8 ∧ l < 8 ∧ y = 64 * t + 8 * c + l :=
  ⟨y / 64, y % 64 / 8, y % 8, by omega, by omega, by omega⟩

theorem storageRow_storageRow (y : Nat) : storageRow (storageRow y) = y := by
  obtain ⟨t, c, l, hc, hl, rfl⟩ := exists_row_digits y
  rw [storageRow_of_digits t hc hl, storageRow_of_digits t hl hc]

theorem storageRow_div_third (y : Nat) : storageRow y / 64 = y / 64 := by
  obtain ⟨t, c, l, hc, hl, rfl⟩ := exists_row_digits y
  rw [storageRow_of_digits t hc hl]
  omega

theorem storageRow_lt {y : Nat} (hy : y < 192) : storageRow y < 192 := by
  have hthird := storageRow_div_third y
  omega

/-- The counter of R68 is the character row inside the third. -/
theorem rowCounter_eq_charRow (y : Nat) : rowCounter y = y % 64 / 8 := by
  induction y with
  | zero => rfl
  | succ y ih =>
    rw [rowCounter, ih]
    split
    · omega
    · split <;> omega

/-! ### The indices -/

theorem specPix_eq_pixIndex (x y : Nat) : specPix x y = pixIndex x y := rfl

/-- The two forms of the attribute index agree (R65). -/
theorem specAtt_eq_attrIndex (x y : Nat) : specAtt x y = attrIndex x y := by
  unfold specAtt attrIndex
  omega

theorem pixIndex_lt {x y : Nat} (hx : x < 256) (hy : y < 192) : pixIndex x y < 6144 := by
  have hrow := storageRow_lt hy
  unfold pixIndex
  omega

theorem pixIndex_div_third {x : Nat} (hx : x < 256) (y : Nat) : pixIndex x y / 2048 = y / 64 := by
  rw [← storageRow_div_third]
  unfold pixIndex
  omega

theorem attrIndex_lt {x y : Nat} (hx : x < 256) (hy : y < 192) : attrIndex x y < 768 := by
  unfold attrIndex
  omega

theorem attrIndex_div_third {x : Nat} (hx : x < 256) (y : Nat) : attrIndex x y / 256 = y / 64 := by
  unfold attrIndex
  omega

theorem bitOrdinal_lt (x : Nat) : bitOrdinal x < 8 := Nat.mod_lt x (by decide)

/-- A bit of a byte of `PIX` belongs to the column its byte column and ordinal give, in the row that the row map takes
the byte's storage row to (R64, R69). -/
theorem pixel_at_bit_iff {x o : Nat} (hx : x < 256) (ho : o < 8) (y p : Nat) :
    pixIndex x y = p ∧ bitOrdinal x = o ↔ x = 8 * (p % 32) + o ∧ y = storageRow (p / 32) := by
  constructor
  · rintro ⟨rfl, rfl⟩
    have hrow : pixIndex x y / 32 = storageRow y := by unfold pixIndex; omega
    rw [hrow, storageRow_storageRow]
    unfold pixIndex bitOrdinal
    omega
  · rintro ⟨hcol, rfl⟩
    rw [pixIndex, storageRow_storageRow, bitOrdinal]
    omega

/-- An attribute byte governs the pixels of its byte column and its character row (R65, R69). -/
theorem attrIndex_eq_iff {x : Nat} (hx : x < 256) (y a : Nat) :
    attrIndex x y = a ↔ x / 8 = a % 32 ∧ y / 8 = a / 32 := by
  unfold attrIndex
  omega

/-! ### The address -/

theorem address_of_lt {x y : Nat} (hx : x < 256) (hy : y < 192) :
    address x y = some ⟨pixIndex x y, bitOrdinal x, attrIndex x y⟩ :=
  if_pos ((onScreen_iff x y).mpr ⟨hx, hy⟩)

theorem address_eq_some_iff (x y p o a : Nat) :
    address x y = some ⟨p, o, a⟩ ↔
      (x < 256 ∧ y < 192) ∧ pixIndex x y = p ∧ bitOrdinal x = o ∧ attrIndex x y = a := by
  rw [address, Option.ite_none_right_eq_some, onScreen_iff, Option.some.injEq, PixelAddress.mk.injEq]

/-- The fields of ADDR's data word, as a number (R53). -/
theorem packAddress_toNat {A : PixelAddress} (hpix : A.pix < 6144) (hord : A.ord < 8) (hattr : A.attr < 768) :
    (packAddress A).toNat = 65536 * A.attr + 8192 * A.ord + A.pix := by
  simp only [packAddress, toNat_append_eq, BitVec.toNat_ofNat]
  omega

theorem exec_addr_next {x y : Nat} {A : PixelAddress} (hA : address x y = some A) (s : State) :
    exec (.addr x y) s = .next (s.respond (packAddress A)) := by
  simp only [exec, execAddr, hA]

/-- Every bit of every byte of `PIX` is the pixel of exactly one coordinate (R69). -/
theorem address_unique_coordinate {p o : Nat} (hp : p < 6144) (ho : o < 8) :
    ∃ x y a, address x y = some ⟨p, o, a⟩ ∧ ∀ x' y' a', address x' y' = some ⟨p, o, a'⟩ → x' = x ∧ y' = y := by
  have hx : 8 * (p % 32) + o < 256 := by omega
  have hy : storageRow (p / 32) < 192 := storageRow_lt (by omega)
  obtain ⟨hpix, hord⟩ := (pixel_at_bit_iff hx ho _ p).mpr ⟨rfl, rfl⟩
  refine ⟨_, _, _, (address_eq_some_iff _ _ p o _).mpr ⟨⟨hx, hy⟩, hpix, hord, rfl⟩, fun x' y' a' h => ?_⟩
  obtain ⟨⟨hx', -⟩, hpix', hord', -⟩ := (address_eq_some_iff x' y' p o a').mp h
  exact (pixel_at_bit_iff hx' ho y' p).mp ⟨hpix', hord'⟩

/-- The coordinates of an attribute byte are exactly those of its 8×8 block (R69). -/
theorem address_attr_iff_block {a : Nat} (ha : a < 768) (x y : Nat) :
    (∃ p o, address x y = some ⟨p, o, a⟩) ↔
      (8 * (a % 32) ≤ x ∧ x ≤ 8 * (a % 32) + 7) ∧ 8 * (a / 32) ≤ y ∧ y ≤ 8 * (a / 32) + 7 := by
  constructor
  · rintro ⟨p, o, h⟩
    obtain ⟨⟨hx, -⟩, -, -, hattr⟩ := (address_eq_some_iff x y p o a).mp h
    have hblock := (attrIndex_eq_iff hx y a).mp hattr
    omega
  · intro hblock
    have hx : x < 256 := by omega
    have hy : y < 192 := by omega
    have hattr : attrIndex x y = a := (attrIndex_eq_iff hx y a).mpr (by omega)
    exact ⟨_, _, (address_eq_some_iff x y _ _ a).mpr ⟨⟨hx, hy⟩, rfl, rfl, hattr⟩⟩

/-- The indices are in range, and both lie in the pixel's third (R69). -/
theorem address_in_range {x y : Nat} {A : PixelAddress} (h : address x y = some A) :
    A.pix < 6144 ∧ A.ord < 8 ∧ A.attr < 768 ∧ A.pix / 2048 = y / 64 ∧ A.attr / 256 = y / 64 := by
  obtain ⟨p, o, a⟩ := A
  obtain ⟨⟨hx, hy⟩, rfl, rfl, rfl⟩ := (address_eq_some_iff x y p o a).mp h
  exact ⟨pixIndex_lt hx hy, bitOrdinal_lt x, attrIndex_lt hx hy, pixIndex_div_third hx y, attrIndex_div_third hx y⟩

/-! ### The obligations -/

/-- Settles O30: on the screen ADDR responds with the packed indices, each of which fits its field. -/
theorem addrAnswersTheIndices : Obligations.AddrAnswersTheIndices := by
  intro s x y hx hy
  have hA := address_of_lt hx hy
  obtain ⟨hpix, hord, hattr, -⟩ := address_in_range hA
  refine ⟨_, _, exec_addr_next hA s, s.answers_respond _, s.respond_blk _, ?_⟩
  rw [packAddress_toNat hpix hord hattr, specAtt_eq_attrIndex, specPix_eq_pixIndex, bitOrdinal]

/-- Settles O31: the row map's involution, which also gives the one coordinate of a bit, and the digits of the attribute
index. -/
theorem addressMapIsBijectiveAndCellwise : Obligations.AddressMapIsBijectiveAndCellwise :=
  ⟨fun y _ => by rw [specRow_eq_storageRow, specRow_eq_storageRow, storageRow_storageRow],
    fun _ _ => address_unique_coordinate,
    fun x y _ ha => address_attr_iff_block ha x y, fun _ _ _ => address_in_range⟩

/-- Settles O32, by the counter's closed form, which its walk keeps row by row. -/
theorem rowFormulaEqualsTheRunningCounter : Obligations.RowFormulaEqualsTheRunningCounter := by
  intro y
  rw [rowCounter_eq_charRow, storageRow, Nat.mul_comm 64]

end Sys2Proof.Machine
end

section
/-!
PROOFS. What PUSH stores (R70) and STAT reports (R25, R78), and that of all operations CLEAR alone lowers a counter or a
flag (R79).
-/

namespace Sys2Proof.Machine

open Claim

/-! ### PUSH -/

theorem exec_push_next (s : State) (v : Byte) :
    exec (.push v) s = .next ((s.withBlk (s.blk.receive v)).respond 0) := rfl

theorem State.answers_withBlk_respond (s : State) (b : Block) (d : Word) :
    Answers s ((s.withBlk b).respond d) 0 d := ⟨rfl, rfl⟩

/-- A PUSH that finds no room drops its byte and notes it, at any count from 6912 on (R70). -/
theorem Block.receive_of_no_room {b : Block} (hfull : 6912 ≤ b.rxCnt.toNat) (v : Byte) :
    b.receive v = b.noteOverflow := by
  rcases b.receive_cases v with ⟨hlt, -⟩ | ⟨-, hlt, -⟩ | ⟨-, h⟩
  · omega
  · omega
  · exact h

/-- What `PIX` holds after a PUSH that finds room (R70): `streamByte_receive` below stream offset 6144. -/
theorem Block.readPix_receive {b : Block} (hroom : b.rxCnt.toNat < 6912) (v : Byte) {i : Nat} (hi : i < 6144) :
    (b.receive v).readPix i = if i = b.rxCnt.toNat then some v else b.readPix i := by
  simpa only [Block.streamByte_of_pix _ hi] using Block.streamByte_receive hroom v (k := i) (by omega)

/-- What `ATTR` holds after a PUSH that finds room (R70): `streamByte_receive` from stream offset 6144 on. -/
theorem Block.readAttr_receive {b : Block} (hroom : b.rxCnt.toNat < 6912) (v : Byte) {j : Nat} (hj : j < 768) :
    (b.receive v).readAttr j = if j + 6144 = b.rxCnt.toNat then some v else b.readAttr j := by
  simpa only [Block.streamByte_of_attr] using Block.streamByte_receive hroom v (k := j + 6144) (by omega)

/-- Settles O33: with room the byte goes to the stream offset that the count names, and without room it is dropped. -/
theorem pushStoresTheNextStreamByte : Obligations.PushStoresTheNextStreamByte := by
  intro s v
  refine ⟨_, exec_push_next s v, s.answers_withBlk_respond _ 0, fun hroom => ?_, fun hfull => ?_,
    s.blk.receive_sameImage v, s.blk.receive_err v⟩
  · obtain ⟨hcnt, hovf⟩ := Block.receive_count_of_lt hroom v
    exact ⟨hcnt, hovf, fun i hi => Block.readPix_receive hroom v hi, fun j hj => Block.readAttr_receive hroom v hj⟩
  · rw [State.respond_blk, State.withBlk_blk, Block.receive_of_no_room hfull]
    exact ⟨rfl, rfl, rfl, rfl⟩

/-! ### STAT -/

theorem exec_stat_next (s : State) : exec .stat s = .next (s.respond s.blk.status) := rfl

/-- The fields of `STATUS`, as a number (R25). -/
theorem Block.status_toNat (b : Block) :
    b.status.toNat = b.err.toNat + 2 ^ 4 * b.imgValid.toNat + 2 ^ 5 * b.hasFlash.toNat + 2 ^ 6 * b.flashOut.toNat +
      2 ^ 7 * b.rxOvf.toNat + 2 ^ 8 * b.borderEn.toNat + 2 ^ 9 * b.scale.toNat + 2 ^ 12 * b.borderCol.toNat +
      2 ^ 16 * b.rxCnt.toNat := by
  simp only [Block.status, toNat_append_eq, BitVec.toNat_ofBool, BitVec.toNat_ofNat]
  omega

/-- Settles O40: STAT responds with the `STATUS` view and writes nothing. -/
theorem statAnswersTheStatusFields : Obligations.StatAnswersTheStatusFields := fun s =>
  ⟨_, _, exec_stat_next s, s.answers_respond _, s.respond_blk _, s.blk.status_toNat⟩

/-! ### Counters and flags -/

/-- From `b` to `c` the byte count does not fall, and neither flag nor the error code is cleared. -/
def Block.KeptUp (b c : Block) : Prop :=
  b.rxCnt.toNat ≤ c.rxCnt.toNat ∧ (b.rxOvf = true → c.rxOvf = true) ∧ (b.imgValid = true → c.imgValid = true) ∧
    (b.err ≠ 0 → c.err ≠ 0)

theorem Block.keptUp_refl (b : Block) : b.KeptUp b := ⟨Nat.le_refl _, id, id, id⟩

theorem Block.keptUp_latchErr (b : Block) (e : Error) : b.KeptUp (b.latchErr e) := by
  refine ⟨Nat.le_refl _, id, id, fun herr => ?_⟩
  rw [Block.latchErr_err, if_neg herr]
  exact herr

theorem Block.keptUp_receive (b : Block) (v : Byte) : b.KeptUp (b.receive v) := by
  obtain ⟨-, hvalid, -⟩ := b.receive_sameImage v
  rw [Block.KeptUp, hvalid, b.receive_err]
  rcases Nat.lt_or_ge b.rxCnt.toNat 6912 with hroom | hfull
  · obtain ⟨hcnt, hovf⟩ := Block.receive_count_of_lt hroom v
    rw [hcnt, hovf]
    exact ⟨Nat.le_succ _, id, id, id⟩
  · rw [Block.receive_of_no_room hfull]
    exact ⟨Nat.le_refl _, fun _ => rfl, id, id⟩

theorem Block.keptUp_writeBlock (b : Block) (x y : Nat) (v : GridCell) : b.KeptUp (b.writeBlock x y v) := by
  rw [Block.writeBlock_eq]
  exact b.keptUp_refl

theorem Writes.keptUp {i : Instr} {b b' : Block} (h : Writes i b b') (hi : i ≠ .clear) : b.KeptUp b' := by
  cases h with
  | clear => exact absurd rfl hi
  | push v => exact b.keptUp_receive v
  | set => exact b.keptUp_writeBlock _ _ _
  | decode | new => exact ⟨Nat.le_refl _, id, fun _ => rfl, id⟩
  | nothing | setflash => exact ⟨Nat.le_refl _, id, id, id⟩

/-- Settles O19: an illegal word and a failed instruction write `ERR` alone, which keeps a code it has, and of the
writes only CLEAR's lowers anything. -/
theorem onlyClearLowersCountersAndFlags : Obligations.OnlyClearLowersCountersAndFlags := by
  intro s t w rest hc hw h
  rcases step_command_cases hc h with ⟨i, hd, hexec⟩ | ⟨e, -, rfl⟩
  · have hi : i ≠ .clear := fun hi => hw (hi ▸ hd)
    rcases exec_writes hexec with hwrite | ⟨e, he⟩
    · exact hwrite.keptUp hi
    · rw [he]
      exact s.blk.keptUp_latchErr e
  · exact s.blk.keptUp_latchErr .illegalCommand

end Sys2Proof.Machine
end

section
/-!
PROOFS. A successful DECODE: when it completes, `HASFLASH` (R76), that another DECODE finds the raw screen as the first
did (R71), and its image against the closed form of the spec (R77).
-/

namespace Sys2Proof.Machine

open Claim

/-! ### When DECODE completes -/

theorem Block.rawExact_iff (b : Block) : b.rawExact = true ↔ LengthOk b := by
  simp [Block.rawExact, LengthOk]

/-- With legal options and a complete raw screen DECODE completes with what the raw screen holds (R71). -/
theorem exec_decode_of_filled {s : State} {sc : Int} {ben : Bool} {bcol : Nat} (hok : OptionsOk sc bcol)
    (hlen : LengthOk s.blk) (hfilled : RawFilled s.blk) :
    ∃ raw, s.blk.rawScreen = some raw ∧ exec (.decode sc ben bcol) s =
      .next ((s.withBlk (s.blk.decodeScreen sc.toNat ben (BitVec.ofNat 4 bcol) raw)).respond 0) := by
  obtain ⟨hpix, hattr⟩ := hfilled
  obtain ⟨raw, hraw⟩ := Block.rawScreen_isSome hpix hattr
  exact ⟨raw, hraw, exec_decode_next hok (s.blk.rawExact_iff.mpr hlen) hraw⟩

/-- A legal scale operand fits the 3-bit register (R26, R72). -/
theorem Claim.OptionsOk.scale_mod {sc : Int} {bcol : Nat} (h : OptionsOk sc bcol) : sc.toNat % 8 = sc.toNat := by
  obtain ⟨hsc, -⟩ := h
  omega

/-! ### The flag of R76 -/

theorem attrFlash_iff (v : Byte) : attrFlash v = true ↔ 128 ≤ v.toNat := by
  have hbit : attrFlash v = decide (v.toNat / 128 % 2 = 1) := Nat.testBit_eq_decide_div_mod_eq
  have hlt := v.isLt
  rw [hbit, decide_eq_true_iff]
  omega

theorem RawScreen.anyFlash_iff (raw : RawScreen) :
    raw.anyFlash = true ↔ ∃ j, j < raw.attr.size ∧ attrFlash (raw.attr.getD j 0) = true := by
  simp only [RawScreen.anyFlash, List.any_eq_true, List.mem_iff_getElem, Array.length_toList, Array.getElem_toList]
  constructor
  · rintro ⟨v, ⟨j, hj, rfl⟩, hflash⟩
    exact ⟨j, hj, by simpa [Array.getD, hj] using hflash⟩
  · rintro ⟨j, hj, hflash⟩
    exact ⟨_, ⟨j, hj, rfl⟩, by simpa [Array.getD, hj] using hflash⟩

/-- `HASFLASH` of the raw screen of a block, on the bytes as `ATTR` reads them. -/
theorem Block.anyFlash_rawScreen_iff {b : Block} {raw : RawScreen} (hraw : b.rawScreen = some raw) :
    raw.anyFlash = true ↔ ∃ j v, j < 768 ∧ b.readAttr j = some v ∧ attrFlash v = true := by
  obtain ⟨-, hsize, hattr⟩ := (b.rawScreen_eq_some_iff raw).mp hraw
  rw [raw.anyFlash_iff, hsize]
  constructor
  · rintro ⟨j, hj, hflash⟩
    exact ⟨j, _, hj, hattr j hj, hflash⟩
  · rintro ⟨j, v, hj, hv, hflash⟩
    cases hv.symm.trans (hattr j hj)
    exact ⟨j, hj, hflash⟩

/-- `HASFLASH` of a raw screen whose `ATTR` bytes are `a`, on the bytes as numbers (R76). -/
theorem Block.anyFlash_iff_of_readAttr {b : Block} {raw : RawScreen} {a : Nat → Byte} (hraw : b.rawScreen = some raw)
    (ha : ∀ j, j < 768 → b.readAttr j = some (a j)) :
    raw.anyFlash = true ↔ ∃ j, j < 768 ∧ 128 ≤ (a j).toNat := by
  rw [Block.anyFlash_rawScreen_iff hraw]
  constructor
  · rintro ⟨j, v, hj, hv, hflash⟩
    cases hv.symm.trans (ha j hj)
    exact ⟨j, hj, (attrFlash_iff _).mp hflash⟩
  · rintro ⟨j, hj, hbig⟩
    exact ⟨j, a j, hj, ha j hj, (attrFlash_iff _).mpr hbig⟩

/-- DECODE reads `ATTR` and leaves it (R71). -/
theorem Block.readAttr_decodeScreen (b : Block) (s : Nat) (ben : Bool) (bc : BitVec 4) (raw : RawScreen) (j : Nat) :
    (b.decodeScreen s ben bc raw).readAttr j = b.readAttr j := rfl

/-- Settles O37: a DECODE that answers code 0 has completed, and it leaves `ATTR` as it read it. -/
theorem hasflashAfterDecodeMeansSomeFlashByte : Obligations.HasflashAfterDecodeMeansSomeFlashByte := by
  intro s t sc ben bcol h ha
  obtain ⟨-, -, -, raw, hraw, hblk⟩ := ha.completes h
  rw [hblk]
  simp only [Block.readAttr_decodeScreen]
  exact Block.anyFlash_rawScreen_iff hraw

/-! ### Another DECODE -/

/-- DECODE overwrites all that an earlier DECODE wrote (R71). -/
theorem Block.decodeScreen_decodeScreen (b : Block) (s s' : Nat) (ben ben' : Bool) (bc bc' : BitVec 4)
    (raw raw' : RawScreen) :
    (b.decodeScreen s ben bc raw).decodeScreen s' ben' bc' raw' = b.decodeScreen s' ben' bc' raw' := rfl

/-- Settles O38: the first DECODE leaves the raw screen and the counters, so the second reads the same from both
states. -/
theorem decodeAgainNeedsNoReload : Obligations.DecodeAgainNeedsNoReload := by
  intro s t sc sc' ben ben' bcol bcol' h ha hok
  obtain ⟨-, -, hexact, raw, hraw, hblk⟩ := ha.completes h
  have hexact' : t.blk.rawExact = true := hblk ▸ hexact
  have hraw' : t.blk.rawScreen = some raw := by
    rw [hblk, Block.rawScreen_congr (Block.decodeScreen_pix _ _ _ _ _) (Block.decodeScreen_attr _ _ _ _ _), hraw]
  refine ⟨_, _, exec_decode_next hok hexact' hraw', exec_decode_next hok hexact hraw,
    t.answers_withBlk_respond _ 0, ?_⟩
  simp only [State.respond_blk, State.withBlk_blk, hblk, Block.decodeScreen_decodeScreen]

/-! ### The image of R77 -/

theorem specW_eq_gridW (s : Nat) (ben : Bool) : specW s ben = gridW s ben := by
  rw [specW, specBW_eq_borderW, gridW]

theorem specH_eq_gridH (s : Nat) (ben : Bool) : specH s ben = gridH s ben := by
  rw [specH, specBH_eq_borderH, gridH]

/-- The cell `{ink, attr}` as a number (R17). -/
theorem mkCell_eq_specCell (ink : Bool) (attr : Byte) : mkCell ink attr = specCell ink attr := by
  have hlt := attr.isLt
  apply BitVec.eq_of_toNat_eq
  rw [mkCell, specCell, toNat_append_eq, toNat_ofBool_eq, BitVec.toNat_ofNat]
  cases ink <;> simp <;> omega

/-- `BCELL` as the number of R82. -/
theorem bcell_eq_specBorderCell {bcol : Nat} (h : bcol ≤ 15) : bcell (BitVec.ofNat 4 bcol) = specBorderCell bcol := by
  have hall : ∀ n < 16, bcell (BitVec.ofNat 4 n) = specBorderCell n := by decide
  exact hall bcol (by omega)

/-- The bytes of a raw screen are `p` and `a`, each on its buffer's indices. -/
def RawScreen.Holds (raw : RawScreen) (p a : Nat → Byte) : Prop :=
  (∀ i, i < 6144 → raw.pix.getD i 0 = p i) ∧ ∀ j, j < 768 → raw.attr.getD j 0 = a j

theorem Block.rawScreen_holds {b : Block} {raw : RawScreen} {p a : Nat → Byte} (hraw : b.rawScreen = some raw)
    (hp : ∀ i, i < 6144 → b.readPix i = some (p i)) (ha : ∀ j, j < 768 → b.readAttr j = some (a j)) :
    raw.Holds p a := by
  obtain ⟨⟨-, hpix⟩, -, hattr⟩ := (b.rawScreen_eq_some_iff raw).mp hraw
  exact ⟨fun i hi => Option.some.inj ((hpix i hi).symm.trans (hp i hi)),
    fun j hj => Option.some.inj ((hattr j hj).symm.trans (ha j hj))⟩

/-- The cell of a logical pixel, in the spec's form (R71, R75). -/
theorem RawScreen.cell_eq_specCell {raw : RawScreen} {p a : Nat → Byte} (h : raw.Holds p a) {x y : Nat}
    (hx : x < 256) (hy : y < 192) :
    raw.cell x y = specCell (decide ((p (specPix x y)).toNat / 2 ^ (7 - x % 8) % 2 = 1)) (a (specAtt x y)) := by
  obtain ⟨hpix, hattr⟩ := h
  rw [RawScreen.cell, hpix _ (pixIndex_lt hx hy), hattr _ (attrIndex_lt hx hy), mkCell_eq_specCell,
    specPix_eq_pixIndex, specAtt_eq_attrIndex, bitOrdinal, BitVec.getLsbD, Nat.testBit_eq_decide_div_mod_eq]

/-- Every cell that DECODE leaves is the one of R77. -/
theorem Block.readCell_decodeScreen_eq_specImage (b : Block) {sc : Int} {bcol : Nat} (hok : OptionsOk sc bcol)
    (ben : Bool) {raw : RawScreen} {p a : Nat → Byte} (h : raw.Holds p a) (r c : Nat) :
    (b.decodeScreen sc.toNat ben (BitVec.ofNat 4 bcol) raw).readCell r c =
      specImage sc.toNat ben bcol p a r c := by
  rw [Block.readCell_decodeScreen, hok.scale_mod, bcell_eq_specBorderCell hok.2]
  simp only [specImage, specBW_eq_borderW, specBH_eq_borderH, specW_eq_gridW, specH_eq_gridH]
  refine if_congr Iff.rfl ?_ rfl
  refine if_ctx_congr and_comm (fun ⟨⟨_, hright⟩, _, hbottom⟩ => ?_) fun _ => rfl
  rw [RawScreen.cell_eq_specCell h (Nat.div_lt_of_lt_mul (by omega)) (Nat.div_lt_of_lt_mul (by omega))]

/-- The registers DECODE leaves hold its options (R71, R80). -/
theorem Block.decodeScreen_options (b : Block) {sc : Int} {bcol : Nat} (hok : OptionsOk sc bcol) (ben : Bool)
    (raw : RawScreen) :
    ((b.decodeScreen sc.toNat ben (BitVec.ofNat 4 bcol) raw).scale.toNat : Int) = sc ∧
      (b.decodeScreen sc.toNat ben (BitVec.ofNat 4 bcol) raw).borderCol.toNat = bcol := by
  have hmod := hok.scale_mod
  obtain ⟨hsc, hcol⟩ := hok
  simp only [Block.decodeScreen_scale, Block.decodeScreen_borderCol, BitVec.toNat_ofNat]
  omega

/-- Settles O35: the bytes that the block holds are those of the raw screen DECODE reads, and the rest is what
`decodeScreen` writes. -/
theorem decodeBuildsTheSpecifiedImage : Obligations.DecodeBuildsTheSpecifiedImage := by
  intro s sc ben bcol p a hok hlen hp ha
  obtain ⟨raw, hraw, hexec⟩ := exec_decode_of_filled (ben := ben) hok hlen
    ⟨fun i hi => Option.isSome_of_eq_some (hp i hi), fun j hj => Option.isSome_of_eq_some (ha j hj)⟩
  obtain ⟨hscale, hcol⟩ := s.blk.decodeScreen_options hok ben raw
  exact ⟨_, hexec, s.answers_withBlk_respond _ 0, ⟨rfl, rfl, rfl, rfl⟩, rfl, rfl, hscale, rfl, hcol, rfl,
    Block.anyFlash_iff_of_readAttr hraw ha,
    s.blk.readCell_decodeScreen_eq_specImage hok ben (Block.rawScreen_holds hraw hp ha)⟩

end Sys2Proof.Machine
end

section
/-!
PROOFS. The pixel walk of R71 against the closed form of R77. Each step of the walk writes the block of one logical pixel
with its cell (`RawScreen.paint`); the blocks tile the scaled screen, so a cell reads as the cell of the one pixel whose
block it lies in, whatever the order of the walk (R74).
-/

namespace Sys2Proof.Machine

open Claim

/-! ### One pixel -/

/-- The write of one logical pixel in the walk: `write_block` with the pixel's cell (R71, R84). -/
def RawScreen.paint (raw : RawScreen) (b : Block) (xy : Nat × Nat) : Block :=
  b.writeBlock xy.1 xy.2 (raw.cell xy.1 xy.2)

/-- A block write leaves the geometry of the image (R80, R84). -/
@[simp] theorem Block.writeBlock_bh (b : Block) (x y : Nat) (v : GridCell) : (b.writeBlock x y v).bh = b.bh := by
  simp [Block.bh]
@[simp] theorem Block.writeBlock_bw (b : Block) (x y : Nat) (v : GridCell) : (b.writeBlock x y v).bw = b.bw := by
  simp [Block.bw]

@[simp] theorem RawScreen.paint_scale (raw : RawScreen) (b : Block) (xy : Nat × Nat) :
    (raw.paint b xy).scale = b.scale := b.writeBlock_scale _ _ _
@[simp] theorem RawScreen.paint_bh (raw : RawScreen) (b : Block) (xy : Nat × Nat) :
    (raw.paint b xy).bh = b.bh := b.writeBlock_bh _ _ _
@[simp] theorem RawScreen.paint_bw (raw : RawScreen) (b : Block) (xy : Nat × Nat) :
    (raw.paint b xy).bw = b.bw := b.writeBlock_bw _ _ _

theorem RawScreen.paint_rawScreen (raw : RawScreen) (b : Block) (xy : Nat × Nat) :
    (raw.paint b xy).rawScreen = b.rawScreen := by
  obtain ⟨hpix, hattr, -, -⟩ := b.writeBlock_sameRaw xy.1 xy.2 (raw.cell xy.1 xy.2)
  exact Block.rawScreen_congr hpix hattr

/-- On the screen a step of the walk finds its two bytes and paints its pixel. -/
theorem walkPixel_eq_paint {b : Block} {raw : RawScreen} (hraw : b.rawScreen = some raw) {xy : Nat × Nat}
    (hxy : xy.1 < 256 ∧ xy.2 < 192) : walkPixel (some b) xy = some (raw.paint b xy) := by
  obtain ⟨⟨-, hpix⟩, -, hattr⟩ := (b.rawScreen_eq_some_iff raw).mp hraw
  obtain ⟨hx, hy⟩ := hxy
  simp only [walkPixel, Option.bind_some, address_of_lt hx hy, hpix _ (pixIndex_lt hx hy),
    hattr _ (attrIndex_lt hx hy), RawScreen.paint, RawScreen.cell, mkCell_eq_specCell]

/-! ### The pixel of a cell -/

/-- The logical pixel whose block holds the cell in row `r` and column `c`, for a cell from the corner of the scaled
screen on. -/
def Block.pixelAt (b : Block) (r c : Nat) : Nat × Nat := ((c - b.bw) / b.scale.toNat, (r - b.bh) / b.scale.toNat)

/-- The blocks of the logical pixels tile the scaled screen: a cell lies in the block of its pixel and in no other
(R84). -/
theorem Block.mem_blockCells_iff_pixelAt {b : Block} (hs : 0 < b.scale.toNat) (x y r c : Nat) :
    (r, c) ∈ b.blockCells x y ↔ (b.bh ≤ r ∧ b.bw ≤ c) ∧ b.pixelAt r c = (x, y) := by
  rw [Block.mem_blockCells, Block.pixelAt, Prod.mk.injEq, Nat.div_eq_iff hs, Nat.div_eq_iff hs]
  omega

theorem RawScreen.readCell_paint (raw : RawScreen) {b : Block} (hs : 0 < b.scale.toNat) {xy : Nat × Nat}
    (hxy : xy.1 < 256 ∧ xy.2 < 192) (r c : Nat) :
    (raw.paint b xy).readCell r c =
      if (b.bh ≤ r ∧ b.bw ≤ c) ∧ b.pixelAt r c = xy then some (raw.cell xy.1 xy.2) else b.readCell r c := by
  rw [RawScreen.paint, Block.readCell_writeBlock _ _ ((onScreen_iff _ _).mpr hxy)]
  exact if_congr (Block.mem_blockCells_iff_pixelAt hs xy.1 xy.2 r c) rfl rfl

/-! ### A list of pixels -/

/-- A walk over pixels of the screen completes, and paints them one after another. -/
theorem foldl_walkPixel_eq_paint {raw : RawScreen} {l : List (Nat × Nat)} (hl : ∀ xy ∈ l, xy.1 < 256 ∧ xy.2 < 192)
    {b : Block} (hraw : b.rawScreen = some raw) : l.foldl walkPixel (some b) = some (l.foldl raw.paint b) := by
  induction l generalizing b with
  | nil => rfl
  | cons xy l ih =>
    obtain ⟨hxy, hl⟩ := List.forall_mem_cons.mp hl
    rw [List.foldl_cons, walkPixel_eq_paint hraw hxy, List.foldl_cons]
    exact ih hl ((raw.paint_rawScreen b xy).trans hraw)

/-- Painting changes the grid alone. -/
theorem foldl_paint_eq (raw : RawScreen) (l : List (Nat × Nat)) (b : Block) :
    l.foldl raw.paint b = { b with grid := (l.foldl raw.paint b).grid } := by
  induction l generalizing b with
  | nil => rfl
  | cons xy l ih => rw [List.foldl_cons, ih, RawScreen.paint, Block.writeBlock_eq]

/-- After the pixels of a list are painted, in whatever order, a cell reads as its own pixel's cell if the list holds
that pixel, and as before if not (R74). -/
theorem readCell_foldl_paint (raw : RawScreen) {l : List (Nat × Nat)} (hl : ∀ xy ∈ l, xy.1 < 256 ∧ xy.2 < 192)
    {b : Block} (hs : 0 < b.scale.toNat) (r c : Nat) :
    (l.foldl raw.paint b).readCell r c =
      if (b.bh ≤ r ∧ b.bw ≤ c) ∧ b.pixelAt r c ∈ l then some (raw.cell (b.pixelAt r c).1 (b.pixelAt r c).2)
      else b.readCell r c := by
  induction l generalizing b with
  | nil => simp
  | cons xy l ih =>
    obtain ⟨hxy, hl⟩ := List.forall_mem_cons.mp hl
    have hpixel : (raw.paint b xy).pixelAt r c = b.pixelAt r c := by simp [Block.pixelAt]
    rw [List.foldl_cons, ih hl (by simpa using hs), hpixel, raw.readCell_paint hs hxy, RawScreen.paint_bh,
      RawScreen.paint_bw]
    by_cases hcorner : b.bh ≤ r ∧ b.bw ≤ c
    · by_cases hlater : b.pixelAt r c ∈ l
      · simp [hcorner, hlater]
      · by_cases hown : b.pixelAt r c = xy
        · simp [hcorner, hown]
        · simp [hcorner, hlater, hown]
    · simp [hcorner]

/-! ### The whole walk -/

theorem mem_scanOrder (xy : Nat × Nat) : xy ∈ scanOrder ↔ xy.1 < 256 ∧ xy.2 < 192 := by
  obtain ⟨x, y⟩ := xy
  simp only [scanOrder, List.mem_flatMap, List.mem_map, List.mem_range, Prod.mk.injEq]
  constructor
  · rintro ⟨y, hy, col, hcol, k, hk, rfl, rfl⟩
    omega
  · rintro ⟨hx, hy⟩
    exact ⟨y, hy, x / 8, by omega, x % 8, by omega, by omega, rfl⟩

/-- The pixels of the walk are those of the scaled screen's cells (R39, R74). -/
theorem Block.pixelAt_mem_scanOrder_iff {b : Block} (hs : 0 < b.scale.toNat) (r c : Nat) :
    (b.bh ≤ r ∧ b.bw ≤ c) ∧ b.pixelAt r c ∈ scanOrder ↔ b.OnScaledScreen r c := by
  rw [mem_scanOrder, Block.pixelAt, Nat.div_lt_iff_lt_mul hs, Nat.div_lt_iff_lt_mul hs]
  omega

/-- The closed form of R77, against the new image it starts from. -/
theorem Block.readCell_decodeScreen_eq_construct (b : Block) (s : Nat) (ben : Bool) (bc : BitVec 4) (raw : RawScreen)
    (r c : Nat) :
    (b.decodeScreen s ben bc raw).readCell r c =
      if (b.construct s ben bc).OnScaledScreen r c then
        some (raw.cell ((b.construct s ben bc).pixelAt r c).1 ((b.construct s ben bc).pixelAt r c).2)
      else (b.construct s ben bc).readCell r c := by
  simp only [Block.readCell_decodeScreen, Block.readCell_construct, Block.OnScaledScreen, Block.pixelAt, Block.bh,
    Block.bw, Block.construct_scale, Block.construct_borderEn, BitVec.toNat_ofNat, Nat.reducePow]
  by_cases hscreen : (borderH (s % 8) ben ≤ r ∧ r < borderH (s % 8) ben + 192 * (s % 8)) ∧
      borderW (s % 8) ben ≤ c ∧ c < borderW (s % 8) ben + 256 * (s % 8)
  · have hgrid : r < gridH (s % 8) ben ∧ c < gridW (s % 8) ben := by
      unfold gridH gridW
      omega
    rw [if_pos hscreen, if_pos hscreen, if_pos hgrid]
  · rw [if_neg hscreen, if_neg hscreen]

/-- The walk over a new image leaves every cell as the closed form does (R77). -/
theorem readCell_scan_construct (raw : RawScreen) (b : Block) {s : Nat} (hs : 0 < s % 8) (ben : Bool) (bc : BitVec 4)
    (r c : Nat) :
    (scanOrder.foldl raw.paint (b.construct s ben bc)).readCell r c = (b.decodeScreen s ben bc raw).readCell r c := by
  have hscale : 0 < (b.construct s ben bc).scale.toNat := by simpa using hs
  rw [readCell_foldl_paint raw (fun xy => (mem_scanOrder xy).mp) hscale, Block.readCell_decodeScreen_eq_construct]
  exact if_congr (Block.pixelAt_mem_scanOrder_iff hscale r c) rfl rfl

/-- Settles O36: the walk finds every byte, changes the grid alone, and leaves the cells of the closed form. -/
theorem decodeEqualsThePixelWalk : Obligations.DecodeEqualsThePixelWalk := by
  intro s sc ben bcol hok hlen hfilled
  obtain ⟨raw, hraw, hexec⟩ := exec_decode_of_filled (ben := ben) hok hlen hfilled
  have hscale : 0 < sc.toNat % 8 := by
    have hmod := hok.scale_mod
    obtain ⟨hsc, -⟩ := hok
    omega
  refine ⟨_, _, hexec, foldl_walkPixel_eq_paint (fun xy => (mem_scanOrder xy).mp) (raw := raw) ?_, fun r c => ?_, ?_⟩
  · exact (Block.rawScreen_congr (Block.construct_pix _ _ _ _) (Block.construct_attr _ _ _ _)).trans hraw
  · exact (readCell_scan_construct raw s.blk hscale ben _ r c).symm
  · rw [foldl_paint_eq]
    rfl

end Sys2Proof.Machine
end

section
/-!
PROOFS. The image that the compositor keeps: its grid of R80, what NEW builds (R81 to R83), the blocks that tile the
scaled screen (R84), what SET writes (R85), and what BOUNDS answers (R87).
-/

namespace Sys2Proof.Machine

open Claim

/-! ### The grid of R80 -/

theorem Block.height_eq_specH (b : Block) : b.height = specH b.scale.toNat b.borderEn := (specH_eq_gridH _ _).symm

theorem Block.width_eq_specW (b : Block) : b.width = specW b.scale.toNat b.borderEn := (specW_eq_gridW _ _).symm

theorem Block.height_lt (b : Block) : b.height < 4096 := by
  have hscale := b.scale_le
  unfold Block.height gridH borderH
  split <;> omega

/-- The scaled screen lies inside the grid (R39, R80). -/
theorem Block.inGrid_of_onScaledScreen {b : Block} {r c : Nat} (h : b.OnScaledScreen r c) : b.inGrid r c = true := by
  obtain ⟨⟨-, hbottom⟩, -, hright⟩ := h
  rw [Block.inGrid_iff]
  unfold Block.height Block.width gridH gridW
  unfold Block.bh at hbottom
  unfold Block.bw at hright
  omega

/-! ### NEW -/

theorem exec_new_next {bcol : Nat} (hcol : bcol ≤ 15) (sc : Int) (ben : Bool) (s : State) :
    exec (.new sc ben bcol) s =
      .next ((s.withBlk (s.blk.construct (clampScale sc) ben (BitVec.ofNat 4 bcol))).respond 0) := by
  simp [exec, execNew, (badBorderCol_eq_false bcol).mpr hcol]

theorem clampScale_of_le_zero {sc : Int} (h : sc ≤ 0) : clampScale sc = 1 := if_pos h

theorem clampScale_of_four_lt {sc : Int} (h : 4 < sc) : clampScale sc = 4 := by
  rw [clampScale, if_neg (by omega), if_pos h]

theorem clampScale_of_legal {sc : Int} (h : 1 ≤ sc ∧ sc ≤ 4) : clampScale sc = sc.toNat := by
  rw [clampScale, if_neg (by omega), if_neg (by omega)]

/-- Every cell of a new image, in the spec's form (R80, R82, R83). -/
theorem Block.readCell_construct_eq_spec (b : Block) (s : Nat) (ben : Bool) {bcol : Nat} (hcol : bcol ≤ 15)
    (r c : Nat) :
    (b.construct s ben (BitVec.ofNat 4 bcol)).readCell r c =
      if r < specH (b.construct s ben (BitVec.ofNat 4 bcol)).scale.toNat ben ∧
          c < specW (b.construct s ben (BitVec.ofNat 4 bcol)).scale.toNat ben then some (specBorderCell bcol)
      else none := by
  rw [Block.readCell_construct, bcell_eq_specBorderCell hcol, specH_eq_gridH, specW_eq_gridW, Block.construct_scale,
    BitVec.toNat_ofNat]

/-- Settles O41: NEW completes with the new image of the clamped scale. -/
theorem newBuildsAnImageOfBorderCells : Obligations.NewBuildsAnImageOfBorderCells := by
  intro s sc ben bcol hcol
  refine ⟨_, exec_new_next hcol sc ben s, s.answers_withBlk_respond _ 0, ⟨rfl, rfl, rfl, rfl⟩, rfl, rfl, rfl, ?_, rfl,
    rfl, fun hlow => ?_, fun hhigh => ?_, fun hlegal => ?_, s.blk.readCell_construct_eq_spec _ ben hcol⟩
  all_goals rw [State.respond_blk, State.withBlk_blk]
  · exact Nat.mod_eq_of_lt (by omega)
  · rw [Block.construct_scale, clampScale_of_le_zero hlow]
    rfl
  · rw [Block.construct_scale, clampScale_of_four_lt hhigh]
    rfl
  · rw [Block.construct_scale, clampScale_of_legal hlegal, BitVec.toNat_ofNat]
    omega

/-! ### SET and the blocks -/

/-- Settles O42: SET completes with the block write, which touches the grid alone. -/
theorem setFillsTheBlockOfThePixel : Obligations.SetFillsTheBlockOfThePixel := by
  intro s x y attr ink himg hx hy
  have hxy : onScreen x y = true := (onScreen_iff x y).mpr ⟨hx, hy⟩
  refine ⟨_, exec_set_next himg hxy attr ink, s.answers_withBlk_respond _ 0, fun r c hin => ?_, fun r c hout => ?_,
    s.blk.writeBlock_eq x y _⟩
  all_goals rw [State.respond_blk, State.withBlk_blk, mkCell_eq_specCell, Block.readCell_writeBlock _ _ hxy]
  · exact if_pos ((s.blk.mem_blockCells_iff_inBlock x y r c).mpr hin)
  · exact if_neg fun hmem => hout ((s.blk.mem_blockCells_iff_inBlock x y r c).mp hmem)

/-- A cell of the scaled screen lies in the block of its pixel (R84). -/
theorem Block.onScaledScreen_iff_exists_block {b : Block} (hs : 0 < b.scale.toNat) (r c : Nat) :
    b.OnScaledScreen r c ↔ ∃ x y, x < 256 ∧ y < 192 ∧ (r, c) ∈ b.blockCells x y := by
  constructor
  · intro hscreen
    obtain ⟨hcorner, hpixel⟩ := (Block.pixelAt_mem_scanOrder_iff hs r c).mpr hscreen
    obtain ⟨hx, hy⟩ := (mem_scanOrder _).mp hpixel
    exact ⟨_, _, hx, hy, (Block.mem_blockCells_iff_pixelAt hs _ _ r c).mpr ⟨hcorner, rfl⟩⟩
  · rintro ⟨x, y, hx, hy, hmem⟩
    exact b.blockCells_inside ((onScreen_iff x y).mpr ⟨hx, hy⟩) hmem

/-- Blocks of different pixels are disjoint (R84). -/
theorem Block.pixel_eq_of_mem_blockCells {b : Block} (hs : 0 < b.scale.toNat) {r c x y x' y' : Nat}
    (h : (r, c) ∈ b.blockCells x y) (h' : (r, c) ∈ b.blockCells x' y') : x = x' ∧ y = y' := by
  obtain ⟨-, hpixel⟩ := (Block.mem_blockCells_iff_pixelAt hs x y r c).mp h
  obtain ⟨-, hpixel'⟩ := (Block.mem_blockCells_iff_pixelAt hs x' y' r c).mp h'
  exact Prod.mk.inj (hpixel.symm.trans hpixel')

/-- Settles O43: the block that holds a cell of the scaled screen is that of the cell's pixel. -/
theorem blocksTileTheScaledScreen : Obligations.BlocksTileTheScaledScreen := by
  intro b r c hs
  refine ⟨Block.onScaledScreen_iff_exists_block hs r c, fun _ _ _ _ => Block.pixel_eq_of_mem_blockCells hs,
    fun hscreen => ?_⟩
  rw [← b.height_eq_specH, ← b.width_eq_specW]
  exact (b.inGrid_iff r c).mp (Block.inGrid_of_onScaledScreen hscreen)

/-! ### BOUNDS -/

theorem exec_bounds_next {s : State} (himg : s.blk.imgValid = true) :
    exec .bounds s = .next (s.respond (packBounds s.blk)) :=
  State.needImage_pos himg _

/-- Width and height fit their halves of the word (R53). -/
theorem packBounds_toNat (b : Block) : (packBounds b).toNat = b.width + 2 ^ 16 * b.height := by
  have hheight := b.height_lt
  have hwidth : b.width < 4096 := b.width_lt_stride
  rw [packBounds, toNat_append_eq, BitVec.toNat_ofNat, BitVec.toNat_ofNat]
  omega

/-- Settles O48: BOUNDS responds with the size of the grid and writes nothing. -/
theorem boundsAnswersTheGridSize : Obligations.BoundsAnswersTheGridSize := by
  intro s himg
  rw [← s.blk.height_eq_specH, ← s.blk.width_eq_specW]
  exact ⟨_, _, exec_bounds_next himg, s.answers_respond _, s.respond_blk _, packBounds_toNat s.blk⟩

end Sys2Proof.Machine
end

section
/-!
PROOFS. What an image shows under the flash switch: the colour GET answers inside and outside the grid (R86), the border
(R82), the flashing cells (R86, R88), and the operations SETFLASH and HASFLASH themselves (R88, R89).
-/

namespace Sys2Proof.Machine

open Claim

/-! ### SETFLASH and HASFLASH -/

theorem exec_setflash_next {s : State} (himg : s.blk.imgValid = true) (en : Bool) :
    exec (.setflash en) s = .next ((s.withBlk (s.blk.switchFlash en)).respond 0) :=
  State.needImage_pos himg _

theorem exec_hasflash_next {s : State} (himg : s.blk.imgValid = true) :
    exec .hasflash s = .next (s.respond (flagWord s.blk.hasFlash)) :=
  State.needImage_pos himg _

theorem flagWord_toNat (f : Bool) : (flagWord f).toNat = if f then 1 else 0 := by
  cases f <;> rfl

/-- Settles O49: SETFLASH completes with the switch moved, HASFLASH with the flag as a word. -/
theorem setflashWritesAndHasflashReads : Obligations.SetflashWritesAndHasflashReads :=
  ⟨fun s en himg => ⟨_, exec_setflash_next himg en, s.answers_withBlk_respond _ 0, rfl⟩,
    fun s himg => ⟨_, _, exec_hasflash_next himg, s.answers_respond _, s.respond_blk _, flagWord_toNat _⟩⟩

/-! ### The colour of a cell -/

theorem cellAttr_toNat (v : GridCell) : (cellAttr v).toNat = v.toNat % 256 := by
  simp [cellAttr, BitVec.extractLsb'_toNat]

theorem cellInk_eq_decide (v : GridCell) : cellInk v = decide (v.toNat / 256 = 1) := by
  have hv := v.isLt
  have hbit : cellInk v = decide (v.toNat / 256 % 2 = 1) := Nat.testBit_eq_decide_div_mod_eq
  rw [hbit, Nat.mod_eq_of_lt (by omega)]

/-- The colour of a cell, in the spec's form (R17, R60, R86). -/
theorem resolve_cell_eq_specCellColour (v : GridCell) (fl : Bool) :
    resolve (cellAttr v) (cellInk v) fl = specCellColour v fl := by
  rw [resolve_eq_specColour, cellAttr_toNat, cellInk_eq_decide, specCellColour]

/-- Off the grid GET answers the border colour (R86). -/
theorem Block.colourAt_of_no_cell {b : Block} {c r : Int}
    (h : ¬ (c < 0 ∨ r < 0) → b.readCell r.toNat c.toNat = none) : b.colourAt c r = specEntry b.borderCol.toNat := by
  rw [← palette_eq_specEntry b.borderCol.isLt, Block.colourAt]
  split
  · rfl
  · rename_i hsign
    rw [h hsign]

/-- Settles O44: a coordinate in the grid has a cell, and any other has none. -/
theorem getAnswersCellOrBorderColour : Obligations.GetAnswersCellOrBorderColour := by
  intro s x y himg
  rw [← s.blk.height_eq_specH, ← s.blk.width_eq_specW]
  refine ⟨_, _, exec_get_next himg x y, s.answers_respond _, s.respond_blk _, ?_, fun hout => ?_⟩
  · rintro ⟨⟨hx, hxw⟩, hy, hyh⟩
    lift x to Nat using hx
    lift y to Nat using hy
    have hin : s.blk.inGrid y x = true := (s.blk.inGrid_iff y x).mpr (by omega)
    obtain ⟨v, hv⟩ := Option.isSome_iff_exists.mp (Block.readCell_isSome himg hin)
    exact ⟨v, hv, (Block.colourAt_of_readCell hv).trans (resolve_cell_eq_specCellColour v _)⟩
  · refine Block.colourAt_of_no_cell fun hsign => Block.readCell_outside ?_
    rw [← Bool.not_eq_true, Block.inGrid_iff]
    omega

/-! ### GET under the flash switch -/

/-- SETFLASH and then GET of a cell: the cell's colour under the new switch (R86, R88). -/
theorem exec_setflash_then_get {s : State} (himg : s.blk.imgValid = true) {r c : Nat} {v : GridCell}
    (hread : s.blk.readCell r c = some v) (en : Bool) :
    ∃ t u, exec (.setflash en) s = .next t ∧ exec (.get c r) t = .next u ∧ Answers t u 0 (specCellColour v en) := by
  have hcolour : (s.blk.switchFlash en).colourAt c r = specCellColour v en :=
    (Block.colourAt_of_readCell (b := s.blk.switchFlash en) hread).trans (resolve_cell_eq_specCellColour v en)
  refine ⟨_, _, exec_setflash_next himg en,
    exec_get_next (s := (s.withBlk (s.blk.switchFlash en)).respond 0) himg c r, ?_⟩
  rw [← hcolour]
  exact State.answers_respond _ _

/-- The border cell shows the border colour under either value of the switch (R82). -/
theorem specCellColour_bcell (bc : BitVec 4) (fl : Bool) : specCellColour (bcell bc) fl = specEntry bc.toNat := by
  revert bc fl
  decide

/-- Settles O46: a cell of the border holds the border cell, which resolves alike with the switch off and on. -/
theorem borderNeverFlashes : Obligations.BorderNeverFlashes := by
  intro s r c en himg hborder hr hc hout
  simpa only [specCellColour_bcell] using exec_setflash_then_get himg (hborder himg r c hr hc hout) en

/-- Inside one half of the palette different indices show different colours (R58). -/
theorem specEntry_half_inj {half i p : Nat} (hhalf : half < 2) (hi : i < 8) (hp : p < 8) :
    specEntry (8 * half + i) = specEntry (8 * half + p) ↔ i = p := by
  have hall : ∀ half < 2, ∀ i < 8, ∀ p < 8, specEntry (8 * half + i) = specEntry (8 * half + p) ↔ i = p := by decide
  exact hall half hhalf i hi p hp

/-- The switch swaps ink and paper where FLASH is set, and nowhere else (R59, R60). -/
theorem specColour_switch_ne_iff (attr : Nat) (ink : Bool) :
    specColour attr ink false ≠ specColour attr ink true ↔ attr / 128 % 2 = 1 ∧ attr % 8 ≠ attr / 8 % 8 := by
  have hinj := specEntry_half_inj (Nat.mod_lt (attr / 64) (by decide)) (Nat.mod_lt attr (by decide))
    (Nat.mod_lt (attr / 8) (by decide))
  by_cases hflash : attr / 128 % 2 = 1
  · cases ink
    · simp [specColour, specIndex, hflash, eq_comm, hinj]
    · simp [specColour, specIndex, hflash, hinj]
  · simp [specColour, specIndex, hflash]

/-- Settles O47: the two answers are the cell's colour with the switch off and with it on. -/
theorem flashSwitchShowsExactlyOnFlashingCells : Obligations.FlashSwitchShowsExactlyOnFlashingCells := by
  intro s r c v himg hread
  obtain ⟨t₀, u₀, hset₀, hget₀, hans₀⟩ := exec_setflash_then_get himg hread false
  obtain ⟨t₁, u₁, hset₁, hget₁, hans₁⟩ := exec_setflash_then_get himg hread true
  refine ⟨t₀, t₁, u₀, u₁, _, _, hset₀, hget₀, hans₀, hset₁, hget₁, hans₁, ?_⟩
  have hflash : v.toNat % 256 / 128 % 2 = v.toNat / 128 % 2 := by omega
  have hink : v.toNat % 256 % 8 = v.toNat % 8 := by omega
  have hpaper : v.toNat % 256 / 8 % 8 = v.toNat / 8 % 8 := by omega
  rw [specCellColour, specCellColour, specColour_switch_ne_iff, hflash, hink, hpaper]

end Sys2Proof.Machine
end

section
/-!
PROOFS. Illegal words (R50, R51, R94): a word is illegal exactly when it passes the `match` and `mask` test of no row,
and each ground that R94 names rules out the test of every row.
-/

namespace Sys2Proof

/-- The decoder refuses exactly the words that pass no row's test (R50). -/
theorem exists_decodeWord_error_iff (w : Word) :
    (∃ e, decodeWord w = .error e) ↔ ∀ op : Op, w &&& op.row.mask ≠ op.row.pattern := by
  constructor
  · rintro ⟨e, he⟩ op htest
    cases he.symm.trans ((decodeWord_ok_iff w _).mpr ⟨op, htest, rfl⟩)
  · intro hno
    cases hd : decodeWord w with
    | ok i =>
      obtain ⟨op, htest, -⟩ := (decodeWord_ok_iff w i).mp hd
      exact absurd htest (hno op)
    | error e => exact ⟨e, rfl⟩

/-- The opcode read as R46 places it, from bit 28 up. -/
theorem opcodeOf_eq_setWidth (w : Word) : opcodeOf w = (w >>> 28).setWidth 4 := by
  have hlt := w.isLt
  rw [← BitVec.toNat_inj, opcodeOf_toNat, BitVec.toNat_setWidth, BitVec.toNat_ushiftRight, Nat.shiftRight_eq_div_pow]
  omega

theorem Op.opcodeOf_pattern (op : Op) : opcodeOf op.row.pattern = op.row.code := by
  cases op <;> decide

/-- No operation has one of the three reserved opcodes (R49). -/
theorem Op.code_not_reserved (op : Op) : op.row.code ∉ [0x0, 0xE, 0xF] := by
  cases op <;> decide

theorem Op.row_test_ne_of_reserved {w : Word} (h : opcodeOf w ∈ [0x0, 0xE, 0xF]) (op : Op) :
    w &&& op.row.mask ≠ op.row.pattern := by
  intro htest
  rw [← Op.code_of_row_test htest] at h
  exact op.code_not_reserved h

/-- A word with a row's opcode that fails this row's test passes no other row's (R50). -/
theorem Op.row_test_ne_of_opcode {op : Op} {w : Word} (hcode : opcodeOf w = op.row.code)
    (htest : w &&& op.row.mask ≠ op.row.pattern) (op' : Op) : w &&& op'.row.mask ≠ op'.row.pattern := by
  intro htest'
  cases Op.code_inj ((Op.code_of_row_test htest').trans hcode)
  exact htest htest'

end Sys2Proof

namespace Sys2Proof.Machine

open Claim

/-- Settles O5: on each ground of R94 the word passes no row's test, so it does not decode and the step raises. -/
theorem illegalWordRaisesIllegalCommand : Obligations.IllegalWordRaisesIllegalCommand := by
  intro s w rest hc hground
  have hno : ∀ op : Op, w &&& op.row.mask ≠ op.row.pattern := by
    rcases hground with h | h | h | ⟨row, hrow, hcode, htest⟩
    · exact Op.row_test_ne_of_reserved (by simp [opcodeOf_eq_setWidth, h])
    · exact Op.row_test_ne_of_reserved (by simp [opcodeOf_eq_setWidth, h])
    · exact Op.row_test_ne_of_reserved (by simp [opcodeOf_eq_setWidth, h])
    · rw [specRows_eq_opcodeTable_map] at hrow
      obtain ⟨r, hr, rfl⟩ := List.mem_map.mp hrow
      obtain ⟨op, rfl⟩ := mem_opcodeTable hr
      refine Op.row_test_ne_of_opcode ?_ htest
      rw [← op.opcodeOf_pattern, opcodeOf_eq_setWidth, opcodeOf_eq_setWidth, hcode]
  obtain ⟨e, he⟩ := (exists_decodeWord_error_iff w).mpr hno
  exact ⟨_, step_of_illegal hc he, rfl, rfl, rfl⟩

end Sys2Proof.Machine
end

section
/-!
PROOFS. What the code of a response says (R91, R100, R101): code 0 is a completed instruction, any other code the error
that was raised, and `ERR` keeps the first of them.
-/

namespace Sys2Proof.Machine

open Claim

/-! ### Codes -/

theorem errorCode_inj {e e' : Error} (h : errorCode e = errorCode e') : e = e' := by
  revert h
  cases e <;> cases e' <;> decide

theorem errorCode_legal (e : Error) : LegalCode (errorCode e) := by
  cases e <;> decide

theorem State.raises_raise (s : State) (e : Error) (d : Word) : Raises s (s.raise e d) (errorCode e) d :=
  ⟨⟨rfl, rfl⟩, rfl⟩

/-! ### The response of an instruction and of a step -/

/-- An instruction that answers an error's code has failed with this error (R91, R100). -/
theorem Claim.Answers.fails {i : Instr} {s t : State} {e : Error} {d : Word} (ha : Answers s t (errorCode e) d)
    (h : exec i s = .next t) : Fails i s.blk e := by
  rcases exec_cases h with ⟨b', d', -, rfl⟩ | ⟨e', d', hfail, rfl⟩
  · exact absurd (congrArg Response.err (ha.response_eq rfl)).symm (errorCode_ne_zero e)
  · cases errorCode_inj (congrArg Response.err (ha.response_eq rfl))
    exact hfail

/-- What a command has done, by the code of its response: with code 0 an instruction has completed, with another code an
error was raised, and not by CLEAR. -/
theorem step_cases_of_response {s t : State} {w : Word} {rest : List Word} {code : BitVec 4} {d : Word}
    (hc : s.commands = w :: rest) (h : step s = .next t) (hresp : t.responses = s.responses ++ [⟨code, d⟩]) :
    (code = 0 ∧ ∃ i, decodeWord w = .ok i ∧ Completes i s.blk t.blk) ∨
    (decodeWord w ≠ .ok .clear ∧
      ∃ e, code = errorCode e ∧ t = ({ s with commands := rest } : State).raise e d) := by
  rcases step_command_cases hc h with ⟨i, hd, hexec⟩ | ⟨e, hd, rfl⟩
  · rcases exec_cases hexec with ⟨b', d', hdone, rfl⟩ | ⟨e, d', hfail, rfl⟩
    · cases List.append_cancel_left hresp
      exact .inl ⟨rfl, i, hd, hdone⟩
    · cases List.append_cancel_left hresp
      refine .inr ⟨fun hclear => ?_, e, rfl, rfl⟩
      cases hd.symm.trans hclear
      exact hfail
  · cases List.append_cancel_left hresp
    refine .inr ⟨fun hclear => ?_, .illegalCommand, rfl, rfl⟩
    cases hd.symm.trans hclear

/-- Settles O8: a step that answers a code other than 0 has raised the error of that code. -/
theorem failedCommandWritesOnlyErr : Obligations.FailedCommandWritesOnlyErr := by
  intro s t w rest code d hc h hresp hcode
  rcases step_cases_of_response hc h hresp with ⟨hzero, -⟩ | ⟨-, e, rfl, rfl⟩
  · exact absurd hzero hcode
  · exact ⟨rfl, rfl⟩

/-! ### `ERR` -/

/-- Of the completed instructions CLEAR alone writes `ERR` (R101). -/
theorem Writes.err_eq {i : Instr} {b b' : Block} (h : Writes i b b') (hi : i ≠ .clear) : b'.err = b.err := by
  cases h with
  | clear => exact absurd rfl hi
  | push v => exact b.receive_err v
  | set => rw [Block.writeBlock_eq]
  | nothing | decode | new | setflash => rfl

/-- Settles O9: a completed instruction other than CLEAR leaves `ERR`, and a raised error sets it where it is 0. -/
theorem errKeepsTheFirstCode : Obligations.ErrKeepsTheFirstCode := by
  intro s t w rest code d hc h hresp
  rcases step_cases_of_response hc h hresp with ⟨rfl, i, hd, hdone⟩ | ⟨hnot, e, rfl, rfl⟩
  · refine ⟨fun hclear => ?_, fun hnot => ?_⟩
    · cases hd.symm.trans hclear
      exact congrArg Block.err hdone
    · have hsame : t.blk.err = s.blk.err := hdone.writes.err_eq fun hi => hnot (hi ▸ hd)
      exact ⟨fun _ => hsame, fun hzero => hsame.trans hzero⟩
  · exact ⟨fun hclear => absurd hclear hnot, fun _ => ⟨fun hne => if_neg hne, fun hzero => if_pos hzero⟩⟩

theorem Block.latchErr_legal {b : Block} (h : LegalCode b.err) (e : Error) : LegalCode (b.latchErr e).err := by
  rw [Block.latchErr_err]
  split
  · exact errorCode_legal e
  · exact h

theorem Writes.err_legal {i : Instr} {b b' : Block} (hw : Writes i b b') (h : LegalCode b.err) : LegalCode b'.err := by
  by_cases hi : i = .clear
  · cases hi
    cases hw with
    | nothing => exact h
    | clear => exact .inl rfl
  · rw [hw.err_eq hi]
    exact h

/-- The code a command answers is 0 or the code of one of the block's errors (R91). -/
theorem response_code_legal {s t : State} {w : Word} {rest : List Word} {r : Response} (hc : s.commands = w :: rest)
    (h : step s = .next t) (hresp : t.responses = s.responses ++ [r]) : LegalCode r.err := by
  rcases step_cases_of_response hc h hresp with ⟨hzero, -⟩ | ⟨-, e, he, -⟩
  · exact .inl hzero
  · rw [he]
    exact errorCode_legal e

/-- Settles O10: every write and every error keeps `ERR` legal, and the one new response is legal. -/
theorem stepKeepsLegalErrorCodes : Obligations.StepKeepsLegalErrorCodes := by
  intro s t herr hold h
  refine ⟨step_keeps (P := fun b => LegalCode b.err) (fun _ e hb => Block.latchErr_legal hb e)
    (fun _ _ _ hw => hw.err_legal) herr h, ?_⟩
  cases hc : s.commands with
  | nil =>
    cases (step_of_no_command hc).symm.trans h
    exact hold
  | cons w rest =>
    obtain ⟨-, r, hresp⟩ := everyCommandGetsOneResponse s t w rest hc h
    rw [hresp, List.forall_mem_append, List.forall_mem_singleton]
    exact ⟨hold, response_code_legal hc h hresp⟩

end Sys2Proof.Machine
end

section
/-!
PROOFS. The grounds of the errors an instruction raises (R92, R93, R95, R96), their order (R99), and the operations that
cannot fail (R97).
-/

namespace Sys2Proof.Machine

open Claim

/-! ### NoImage -/

/-- The five operations that need an image raise `NoImage` without one, before they look at an operand (R90, R95,
R99). -/
theorem exec_of_no_image {i : Instr} {s : State} (hi : i.op ∈ [Op.set, .get, .bounds, .setflash, .hasflash])
    (himg : s.blk.imgValid = false) : exec i s = .next (s.raise .noImage 0) := by
  cases i with
  | set | get | bounds | setflash | hasflash => exact State.needImage_neg himg _
  | resolve | pal | addr | push | decode | new | stat | clear => simp [Instr.op] at hi

theorem Fails.of_noImage {i : Instr} {b : Block} (h : Fails i b .noImage) :
    i.op ∈ [Op.set, .get, .bounds, .setflash, .hasflash] ∧ b.imgValid = false := by
  cases i with
  | set => simpa [Fails, Instr.op] using h
  | get | bounds | setflash | hasflash => exact ⟨by simp [Instr.op], h.2⟩
  | decode => simp [Fails] at h
  | addr | new => cases h.1
  | resolve | pal | push | stat | clear => exact h.elim

/-- Settles O11: the image test comes first in the five operations, and no other test raises `NoImage`. -/
theorem noImageIsRaisedExactlyWithoutImage : Obligations.NoImageIsRaisedExactlyWithoutImage := by
  refine ⟨fun i s hi himg => ⟨_, exec_of_no_image hi himg, s.raises_raise .noImage 0⟩, fun i s t d h ha => ?_⟩
  obtain ⟨hi, himg⟩ := (Answers.fails (e := .noImage) ha h).of_noImage
  cases (exec_of_no_image hi himg).symm.trans h
  exact ⟨hi, himg, (congrArg Response.data (ha.response_eq rfl)).symm⟩

/-! ### BadCoordinate -/

theorem onScreen_eq_false_iff (x y : Nat) : onScreen x y = false ↔ 256 ≤ x ∨ 192 ≤ y := by
  rw [← Bool.not_eq_true, onScreen_iff]
  omega

theorem exec_addr_off_screen {x y : Nat} (hxy : onScreen x y = false) (s : State) :
    exec (.addr x y) s = .next (s.raise .badCoordinate 0) := by
  simp only [exec, execAddr, address, hxy, Bool.false_eq_true, if_false]

theorem exec_set_off_screen {s : State} (himg : s.blk.imgValid = true) {x y : Nat} (hxy : onScreen x y = false)
    (attr : Byte) (ink : Bool) : exec (.set x y attr ink) s = .next (s.raise .badCoordinate 0) := by
  simp only [exec, execSet, State.needImage_pos himg, hxy, Bool.false_eq_true, if_false]

theorem Fails.of_badCoordinate {i : Instr} {b : Block} (h : Fails i b .badCoordinate) :
    (∃ x y, i = .addr x y ∧ onScreen x y = false) ∨
      ∃ x y attr ink, i = .set x y attr ink ∧ onScreen x y = false := by
  cases i with
  | addr x y => exact .inl ⟨x, y, rfl, h.2⟩
  | set x y attr ink =>
    obtain ⟨hcode, -⟩ | ⟨-, -, hxy⟩ := h
    · cases hcode
    · exact .inr ⟨x, y, attr, ink, rfl, hxy⟩
  | decode => simp [Fails] at h
  | new | get | bounds | setflash | hasflash => cases h.1
  | resolve | pal | push | stat | clear => exact h.elim

/-- Settles O12: `BadCoordinate` means a coordinate off the screen, and a word cannot carry a column off the screen. -/
theorem badCoordinateIsRaisedExactlyBelowTheScreen : Obligations.BadCoordinateIsRaisedExactlyBelowTheScreen := by
  refine ⟨fun s x y hy => ?_, fun s x y attr ink himg hy => ?_, fun i s t d hwf h ha => ?_⟩
  · exact ⟨_, exec_addr_off_screen ((onScreen_eq_false_iff x y).mpr (.inr hy)) s, s.raises_raise .badCoordinate 0⟩
  · exact ⟨_, exec_set_off_screen himg ((onScreen_eq_false_iff x y).mpr (.inr hy)) attr ink,
      s.raises_raise .badCoordinate 0⟩
  · have hbelow {x y : Nat} (hxy : onScreen x y = false) (hx : x < 256) : 192 ≤ y :=
      ((onScreen_eq_false_iff x y).mp hxy).resolve_left (by omega)
    rcases (Answers.fails (e := .badCoordinate) ha h).of_badCoordinate with
      ⟨x, y, rfl, hxy⟩ | ⟨x, y, attr, ink, rfl, hxy⟩
    all_goals simp only [Instr.wellFormed, Bool.and_eq_true, decide_eq_true_eq] at hwf
    · exact .inl ⟨x, y, rfl, hbelow hxy hwf.1⟩
    · exact .inr ⟨x, y, attr, ink, rfl, hbelow hxy hwf.1⟩

/-! ### InvalidOptions -/

theorem optionFaults_toNat (scaleBad bcolBad : Bool) :
    (optionFaults scaleBad bcolBad).toNat = (if scaleBad then 1 else 0) + if bcolBad then 2 else 0 := by
  cases scaleBad <;> cases bcolBad <;> rfl

theorem badScale_eq_true (sc : Int) : badScale sc = true ↔ ¬ (1 ≤ sc ∧ sc ≤ 4) := by
  rw [← badScale_eq_false, Bool.not_eq_false]

theorem badBorderCol_eq_true (bcol : Nat) : badBorderCol bcol = true ↔ 15 < bcol := by
  simp [badBorderCol]

/-- DECODE tests its options before it looks at the byte count (R72, R99). -/
theorem exec_decode_of_bad_options {sc : Int} {bcol : Nat} (hbad : ¬ OptionsOk sc bcol) (ben : Bool) (s : State) :
    exec (.decode sc ben bcol) s =
      .next (s.raise .invalidOptions (optionFaults (badScale sc) (badBorderCol bcol))) := by
  rcases execDecode_cases sc ben bcol s with ⟨-, h⟩ | ⟨hok, -⟩ | ⟨hok, -⟩ | ⟨hok, -⟩
  · exact h
  all_goals exact absurd hok hbad

theorem exec_new_of_bad_borderCol {bcol : Nat} (hcol : 15 < bcol) (sc : Int) (ben : Bool) (s : State) :
    exec (.new sc ben bcol) s = .next (s.raise .invalidOptions (optionFaults false true)) := by
  simp only [exec, execNew, (badBorderCol_eq_true bcol).mpr hcol, if_true]

/-- Settles O13: the option tests of DECODE and NEW, and the mask as a number. -/
theorem invalidOptionsReportsTheBadFields : Obligations.InvalidOptionsReportsTheBadFields := by
  refine ⟨fun s sc ben bcol hbad => ?_, fun s sc ben bcol hcol => ?_⟩
  · refine ⟨_, _, exec_decode_of_bad_options hbad ben s, s.raises_raise .invalidOptions _, ?_⟩
    simp only [optionFaults_toNat, badScale_eq_true, badBorderCol_eq_true, ite_not]
  · exact ⟨_, exec_new_of_bad_borderCol hcol sc ben s, s.raises_raise .invalidOptions _⟩

/-! ### TruncatedInput -/

theorem countInfo_toNat (b : Block) :
    (countInfo b).toNat = b.rxCnt.toNat + 2 ^ 16 * 6912 + (if b.rxOvf then 2 ^ 31 else 0) := by
  have hcnt := b.rxCnt.isLt
  simp only [countInfo, toNat_append_eq, toNat_ofBool_eq, BitVec.toNat_ofNat, scrBytes]
  split <;> omega

/-- With legal options DECODE tests the byte count next, and reads no byte when it is wrong (R73). -/
theorem exec_decode_of_bad_length {s : State} {sc : Int} {bcol : Nat} (hok : OptionsOk sc bcol)
    (hlen : ¬ LengthOk s.blk) (ben : Bool) :
    exec (.decode sc ben bcol) s = .next (s.raise .truncatedInput (countInfo s.blk)) := by
  rw [← s.blk.rawExact_iff] at hlen
  rcases execDecode_cases sc ben bcol s with ⟨hbad, -⟩ | ⟨-, -, h⟩ | ⟨-, hexact, -⟩ | ⟨-, hexact, -⟩
  · exact absurd hok hbad
  · exact h
  all_goals exact absurd hexact hlen

/-- Settles O14: DECODE's length test, and the packed counts as a number. -/
theorem truncatedInputReportsTheCounts : Obligations.TruncatedInputReportsTheCounts := by
  intro s sc ben bcol hok hwrong
  have hlen : ¬ LengthOk s.blk := fun ⟨hcnt, hovf⟩ => hwrong.elim (· hcnt) (by simp [hovf])
  exact ⟨_, _, exec_decode_of_bad_length hok hlen ben, s.raises_raise .truncatedInput _, countInfo_toNat s.blk⟩

/-! ### The order of the tests, and what cannot fail -/

/-- Settles O15: SET tests for an image first, and DECODE its options. -/
theorem errorPriorityInSetAndDecode : Obligations.ErrorPriorityInSetAndDecode :=
  ⟨fun s _ _ _ _ himg _ => ⟨_, exec_of_no_image (by simp [Instr.op]) himg, s.raises_raise .noImage 0⟩,
    fun s _ ben _ hbad _ => ⟨_, _, exec_decode_of_bad_options hbad ben s, s.raises_raise .invalidOptions _⟩⟩

/-- Settles O16: the first five have no test, the image test is the only one of the next four, and R20 gives DECODE its
raw screen. -/
theorem operationsThatCannotFail : Obligations.OperationsThatCannotFail := by
  refine ⟨fun i s hi => ?_, fun i s hi himg => ?_, fun s sc ben bcol hcons hok hlen => ?_⟩
  · cases i with
    | resolve | pal | stat => exact ⟨_, _, rfl, s.answers_respond _⟩
    | push | clear => exact ⟨_, _, rfl, s.answers_withBlk_respond _ _⟩
    | addr | decode | new | set | get | bounds | setflash | hasflash => simp [Instr.op] at hi
  · cases i with
    | get x y => exact ⟨_, _, exec_get_next himg x y, s.answers_respond _⟩
    | bounds => exact ⟨_, _, exec_bounds_next himg, s.answers_respond _⟩
    | setflash en => exact ⟨_, _, exec_setflash_next himg en, s.answers_withBlk_respond _ _⟩
    | hasflash => exact ⟨_, _, exec_hasflash_next himg, s.answers_respond _⟩
    | resolve | pal | addr | push | decode | new | set | stat | clear => simp [Instr.op] at hi
  · have hexact : s.blk.rawExact = true := s.blk.rawExact_iff.mpr hlen
    obtain ⟨raw, hraw⟩ := hcons.rawScreen_isSome hexact
    exact ⟨_, exec_decode_next hok hexact hraw, s.answers_withBlk_respond _ 0⟩

end Sys2Proof.Machine
end

section
/-!
PROOFS. What reset and CLEAR leave (R79, R110), and the whole conversion: from reset, 6912 bytes pushed and one DECODE
(R113).
-/

namespace Sys2Proof.Machine

open Claim

/-! ### Reset and CLEAR -/

theorem exec_clear_next (s : State) : exec .clear s = .next ((s.withBlk Block.reset).respond 0) := rfl

@[simp] theorem Block.reset_readPix (i : Nat) : Block.reset.readPix i = none := by simp [Block.readPix]

@[simp] theorem Block.reset_readAttr (j : Nat) : Block.reset.readAttr j = none := by simp [Block.readAttr]

/-- Without an image the grid fill has no value either (R31, R112). -/
@[simp] theorem Block.reset_readCell (r c : Nat) : Block.reset.readCell r c = none := by
  simp [Block.readCell, Block.gridFill]

theorem Block.reset_atReset : AtReset Block.reset :=
  ⟨rfl, rfl, rfl, rfl, rfl, rfl, rfl, rfl, rfl, by decide, Block.reset_readPix, Block.reset_readAttr,
    Block.reset_readCell⟩

/-- Settles O21: CLEAR writes the block of reset, whatever the block was. -/
theorem resetAndClearLeaveResetValues : Obligations.ResetAndClearLeaveResetValues :=
  ⟨Block.reset_atReset, fun s => ⟨_, exec_clear_next s, s.answers_withBlk_respond _ 0, Block.reset_atReset, rfl⟩⟩

/-! ### The whole conversion -/

theorem getElem?_eq_some_getD {bytes : List Byte} {k : Nat} (hk : k < bytes.length) :
    bytes[k]? = some (bytes.getD k 0) := by
  simp [hk]

/-- A whole stream pushed from reset completes the raw screen: byte `k` lies at stream offset `k` (R33, R70, R73). -/
theorem pushAll_from_reset {s : State} {bytes : List Byte} (hreset : s.blk = Block.reset)
    (hlen : bytes.length = 6912) :
    ∃ t, pushAll bytes s = some t ∧ LengthOk t.blk ∧ t.blk.err = 0 ∧
      (∀ i, i < 6144 → t.blk.readPix i = some (bytes.getD i 0)) ∧
      ∀ j, j < 768 → t.blk.readAttr j = some (bytes.getD (6144 + j) 0) := by
  obtain ⟨t, hpush, hcnt, hovf, -, herr, hpix, hattr⟩ :=
    pushedStreamFillsTheBuffers s bytes (by rw [hreset, Block.reset_rxCnt]) hlen.le
  rw [hreset] at hovf herr
  refine ⟨t, hpush, ⟨hcnt.trans hlen, hovf⟩, herr, fun i hi => ?_, fun j hj => ?_⟩
  · have hin : i < bytes.length := by omega
    rw [hpix i hi, if_pos hin, getElem?_eq_some_getD hin]
  · have hin : 6144 + j < bytes.length := by omega
    rw [hattr j hj, Nat.add_comm j, if_pos hin, getElem?_eq_some_getD hin]

/-- A FLASH byte among the 768 of `ATTR` is a byte of the stream from offset 6144 on (R33, R76). -/
theorem exists_attr_flash_iff_stream {bytes : List Byte} (hlen : bytes.length = 6912) :
    (∃ j, j < 768 ∧ 128 ≤ (bytes.getD (6144 + j) 0).toNat) ↔
      ∃ k v, 6144 ≤ k ∧ bytes[k]? = some v ∧ 128 ≤ v.toNat := by
  constructor
  · rintro ⟨j, hj, hflash⟩
    exact ⟨6144 + j, _, by omega, getElem?_eq_some_getD (by omega), hflash⟩
  · rintro ⟨k, v, hk, hv, hflash⟩
    obtain ⟨hin, -⟩ := List.getElem?_eq_some_iff.mp hv
    refine ⟨k - 6144, by omega, ?_⟩
    rwa [Nat.add_sub_of_le hk, List.getD_eq_getElem?_getD, hv, Option.getD_some]

/-- Settles O39: the stream fills the raw buffers (O34), and DECODE builds the image of what they hold (O35). -/
theorem conversionGivesTheImageOfTheStream : Obligations.ConversionGivesTheImageOfTheStream := by
  intro s bytes sc ben bcol hreset hlen hok
  obtain ⟨t, hpush, hlength, herr, hpix, hattr⟩ := pushAll_from_reset hreset hlen
  obtain ⟨u, hexec, hanswers, -, herr', himg, -, -, -, -, hflash, hcells⟩ :=
    decodeBuildsTheSpecifiedImage t sc ben bcol (fun i => bytes.getD i 0) (fun j => bytes.getD (6144 + j) 0)
      hok hlength hpix hattr
  exact ⟨t, u, hpush, hexec, hanswers, herr'.trans herr, himg, hflash.trans (exists_attr_flash_iff_stream hlen),
    hcells⟩

end Sys2Proof.Machine
end
